-- ==== Sys2Proof/Word.lean ====
section
/-! DEFINITION. The two widths of the protocol engine: the byte, the only unit that travels (20_memory.md R62), and the
16-bit field that two bytes make (30_encoding.md R88). -/

namespace Sys2Proof

/-- A byte, 0 to 255; `+` on bytes is the spec's `+8` (00_scope.md R10). -/
abbrev Byte := BitVec 8

/-- A 16-bit field: a pulse width, a reading, the board identifier. -/
abbrev Half := BitVec 16

end Sys2Proof
end

