-- ==== Sys2Proof/Config.lean ====
section
/-! DEFINITION. What an implementation fixes: the names of the six classes and the fifteen commands, the build-time
parameters of 00_scope.md R7, the records of driver calls, and the free values: what the peripheral drivers answer. -/

namespace Sys2Proof

/-- The six subsystems (30_encoding.md R85). -/
inductive Cls where
  | misc | gpio | analog | i2c | servo | counter
deriving DecidableEq, Repr, Inhabited

/-- The fifteen commands, in the order of 30_encoding.md R86. -/
inductive Cmd where
  | miscReset | miscGetId | miscGetTemp
  | gpioConfig | gpioRead | gpioWrite
  | analogRead | analogReadAll
  | i2cConfig | i2cRead | i2cWrite
  | servoConfig | servoSet
  | counterConfig | counterRead
deriving DecidableEq, Repr, Inhabited

/-- The data-tag parameters `DT_*`, one per command (30_encoding.md R86). -/
structure TagTable where
  miscReset     : Byte
  miscGetId     : Byte
  miscGetTemp   : Byte
  gpioConfig    : Byte
  gpioRead      : Byte
  gpioWrite     : Byte
  analogRead    : Byte
  analogReadAll : Byte
  i2cConfig     : Byte
  i2cRead       : Byte
  i2cWrite      : Byte
  servoConfig   : Byte
  servoSet      : Byte
  counterConfig : Byte
  counterRead   : Byte
deriving DecidableEq, Repr

/-- The parameters the model takes as arguments (00_scope.md R7). Their constraints are `Params.ok`, their defaults
`Params.default`, both in Decode.lean. -/
structure Params where
  /-- `RX_CAP` -/
  rxCap       : Nat
  /-- `TX_CAP` -/
  txCap       : Nat
  /-- `I2C_RD_CAP`, 0 to 255 -/
  i2cRdCap    : Byte
  /-- `BOARD_ID` -/
  boardId     : Half
  /-- `GPIO_OPT_MASK` -/
  gpioOptMask : Byte
  /-- `CNT_OPT_MASK` -/
  cntOptMask  : Byte
  /-- `DT_*` -/
  dt          : TagTable
deriving DecidableEq, Repr

/-- What `drv.gpio_read` returns: three one-bit values (10_state.md R40). -/
structure GpioSample where
  value : Bool
  rise  : Bool
  fall  : Bool
deriving DecidableEq, Repr, Inhabited

/-- One call of a driver primitive with its arguments and the values drawn (10_state.md R40, R44). -/
inductive DrvCall where
  | tempSample (t : Half)
  | gpioConfig (pin opt : Byte)
  | gpioRead (pin : Byte) (sample : GpioSample)
  | gpioWrite (pin v : Byte)
  | adcRead (ch : Byte) (r : Half)
  | i2cConfig (sel : Byte)
  | i2cRead (addr off n : Byte) (bytes : List Byte)
  | i2cWrite (addr off : Byte) (bytes : List Byte)
  | servoConfig (pin : Byte) (pw : Half)
  | servoSet (pin : Byte) (pw : Half)
  | counterConfig (pin opt : Byte)
  | counterRead (pin n : Byte)
deriving DecidableEq, Repr

/-- What can change the state of the peripheral drivers: a call of a primitive, a `Peripheral` event (10_state.md R42),
a restart of the device (70_reset_and_hazards.md R232). -/
inductive DrvEvent where
  | call (c : DrvCall)
  | peripheral
  | restart
deriving DecidableEq, Repr

namespace Config

/-! The draws of 10_state.md R40 and the watchdog's wait: FREE VALUES. Each draw is an opaque function of everything that has happened to the drivers
so far (the whole history, oldest first) and of the call's arguments, so that nothing can be proved of the value it
returns but its width (log 9, safe). -/

/-- What `drv.temp_sample()` returns: any 16-bit value (92_eei_decisions.md D31). -/
opaque tempSample : List DrvEvent → Half

/-- What `drv.gpio_read(pin)` returns: any three bits. -/
opaque gpioRead : List DrvEvent → Byte → GpioSample

/-- What `drv.adc_read(ch)` returns: any 16-bit value (D31). -/
opaque adcRead : List DrvEvent → Byte → Half

/-- The byte with index `i` of the `n` bytes that `drv.i2c_read(addr, off, n)` returns: any byte. -/
opaque i2cReadByte : List DrvEvent → (addr off n : Byte) → (i : Nat) → Byte

/-- What `drv.counter_read(pin)` returns: any byte (46_counter.md R191). -/
opaque counterRead : List DrvEvent → Byte → Byte

/-- How many turns the Reset spin lasts before the watchdog restarts the device, unless an event ends it sooner: FREE
VALUE, some number and no bound on it (60_exceptions.md R214; log 39). -/
opaque watchdogTurns : List DrvEvent → Nat

end Config

/-- `I2C_WR_CAP`, fixed by the document (00_scope.md R7, R8): no parameter. -/
abbrev i2cWrCap : Nat := 8

end Sys2Proof
end

