-- ==== Sys2Proof/Syntax.lean ====
section
/-! DEFINITION. The instructions: one request frame each (00_scope.md R6), one constructor per row of
spec/opcode_table.json, with every byte of the frame that the two tags do not fix: the argument bytes of
30_encoding.md R83, for I2C Write the data bytes, and the checksum byte `k` the host sent (which may be wrong). -/

namespace Sys2Proof

/-- One command as the dispatcher reads it off a frame (30_encoding.md R82, R83). `k` is the frame's last byte. -/
inductive Instr where
  /-- `MISC.RESET` (41_misc.md R140) -/
  | miscReset (k : Byte)
  /-- `MISC.GETID` (R141) -/
  | miscGetId (k : Byte)
  /-- `MISC.GETTEMP` (R142) -/
  | miscGetTemp (k : Byte)
  /-- `GPIO.CONFIG pin, opt` (42_gpio.md R150) -/
  | gpioConfig (pin opt k : Byte)
  /-- `GPIO.READ pin` (R151) -/
  | gpioRead (pin k : Byte)
  /-- `GPIO.WRITE pin, v` (R152) -/
  | gpioWrite (pin v k : Byte)
  /-- `ANALOG.READ ch` (43_analog.md R160) -/
  | analogRead (ch k : Byte)
  /-- `ANALOG.READALL` (R161) -/
  | analogReadAll (k : Byte)
  /-- `I2C.CONFIG sel` (44_i2c.md R170) -/
  | i2cConfig (sel k : Byte)
  /-- `I2C.READ addr, off, n` (R171) -/
  | i2cRead (addr off n k : Byte)
  /-- `I2C.WRITE addr, off, [data]` with its length byte `n` (R172) -/
  | i2cWrite (addr off n : Byte) (data : List Byte) (k : Byte)
  /-- `SERVO.CONFIG pin, pw` (45_servo.md R180) -/
  | servoConfig (pin : Byte) (pw : Half) (k : Byte)
  /-- `SERVO.SET pin, pw` (R181) -/
  | servoSet (pin : Byte) (pw : Half) (k : Byte)
  /-- `COUNTER.CONFIG pin, opt` (46_counter.md R190) -/
  | counterConfig (pin opt k : Byte)
  /-- `COUNTER.READ pin` (R191) -/
  | counterRead (pin k : Byte)
deriving DecidableEq, Repr

end Sys2Proof
end

