-- ==== Sys2Proof/WellFormed.lean ====
section
/-! DEFINITION. When a term of `Instr` is a whole request frame. -/

namespace Sys2Proof

/-- The one relation between operands that a frame has: an I2C Write carries as many data bytes as its length byte says,
whatever that length is (30_encoding.md R100). Every other operand may be any byte: an argument outside its valid range
is no illegal encoding (R99). -/
def Instr.wellFormed : Instr → Bool
  | .i2cWrite _ _ n data _ => data.length == n.toNat
  | .miscReset _ | .miscGetId _ | .miscGetTemp _ => true
  | .gpioConfig _ _ _ | .gpioRead _ _ | .gpioWrite _ _ _ => true
  | .analogRead _ _ | .analogReadAll _ => true
  | .i2cConfig _ _ | .i2cRead _ _ _ _ => true
  | .servoConfig _ _ _ | .servoSet _ _ _ => true
  | .counterConfig _ _ _ | .counterRead _ _ => true

end Sys2Proof
end

