-- ==== Sys2Proof/Decode.lean ====
section
/-! DEFINITION. The frame codec's tables and functions (30_encoding.md): tag values, argument counts, the parameters'
constraints and defaults, the checksum, the decoder of a byte sequence (total, rejecting by name) and, after it, the
encoder. The dispatcher of Machine/MainLoop.lean uses the same tables one byte at a time. -/

namespace Sys2Proof

/-! ## Byte helpers (00_scope.md R10) -/

/-- `hi8(w) = w[15:8]`. -/
def hi8 (w : Half) : Byte := BitVec.ofNat 8 (w.toNat / 256)

/-- `lo8(w) = w[7:0]`. -/
def lo8 (w : Half) : Byte := BitVec.ofNat 8 (w.toNat % 256)

/-- `{hi, lo} = hi * 256 + lo` (30_encoding.md R88). -/
def half (hi lo : Byte) : Half := BitVec.ofNat 16 (hi.toNat * 256 + lo.toNat)

/-- `checksum(s) = sum8(s)`, with `checksum([]) = 0` (R94). -/
def checksum : List Byte → Byte
  | [] => 0
  | b :: s => b + checksum s

/-- The frame of a body: the body and its checksum (R94). -/
def frameOf (body : List Byte) : List Byte := body ++ [checksum body]

/-! ## Tags -/

/-- Class tags: "Misc=1, GPIO=2, Analog=3, I2C=4, Servo=5, Counter=6" (R85). -/
def Cls.tag : Cls → Byte
  | .misc => 1
  | .gpio => 2
  | .analog => 3
  | .i2c => 4
  | .servo => 5
  | .counter => 6

/-- The class a byte names, none for 0 and 7 to 255 (R85, R97). -/
def Cls.ofTag (b : Byte) : Option Cls :=
  if b = 1 then some .misc
  else if b = 2 then some .gpio
  else if b = 3 then some .analog
  else if b = 4 then some .i2c
  else if b = 5 then some .servo
  else if b = 6 then some .counter
  else none

/-- The class of each command (R86). -/
def Cmd.cls : Cmd → Cls
  | .miscReset | .miscGetId | .miscGetTemp => .misc
  | .gpioConfig | .gpioRead | .gpioWrite => .gpio
  | .analogRead | .analogReadAll => .analog
  | .i2cConfig | .i2cRead | .i2cWrite => .i2c
  | .servoConfig | .servoSet => .servo
  | .counterConfig | .counterRead => .counter

/-- The data tag of each command: its parameter `DT_*` (R86). -/
def Cmd.tag (p : Params) : Cmd → Byte
  | .miscReset => p.dt.miscReset
  | .miscGetId => p.dt.miscGetId
  | .miscGetTemp => p.dt.miscGetTemp
  | .gpioConfig => p.dt.gpioConfig
  | .gpioRead => p.dt.gpioRead
  | .gpioWrite => p.dt.gpioWrite
  | .analogRead => p.dt.analogRead
  | .analogReadAll => p.dt.analogReadAll
  | .i2cConfig => p.dt.i2cConfig
  | .i2cRead => p.dt.i2cRead
  | .i2cWrite => p.dt.i2cWrite
  | .servoConfig => p.dt.servoConfig
  | .servoSet => p.dt.servoSet
  | .counterConfig => p.dt.counterConfig
  | .counterRead => p.dt.counterRead

/-- The commands of a class (R86). -/
def Cls.commands : Cls → List Cmd
  | .misc => [.miscReset, .miscGetId, .miscGetTemp]
  | .gpio => [.gpioConfig, .gpioRead, .gpioWrite]
  | .analog => [.analogRead, .analogReadAll]
  | .i2c => [.i2cConfig, .i2cRead, .i2cWrite]
  | .servo => [.servoConfig, .servoSet]
  | .counter => [.counterConfig, .counterRead]

/-- The command a data tag selects inside a class; `known(c, t)` of R87 is that there is one. -/
def lookup (p : Params) (c : Cls) (t : Byte) : Option Cmd :=
  c.commands.find? fun m => m.tag p = t

/-- `nfix(c, t)`: the number of fixed argument bytes (R83). -/
def Cmd.nfix : Cmd → Nat
  | .miscReset | .miscGetId | .miscGetTemp | .analogReadAll => 0
  | .gpioRead | .analogRead | .i2cConfig | .counterRead => 1
  | .gpioConfig | .gpioWrite | .counterConfig => 2
  | .i2cRead | .i2cWrite | .servoConfig | .servoSet => 3

/-- `var(c, t)`: whether data bytes follow, counted by the third argument; only I2C Write (R83). -/
def Cmd.hasData : Cmd → Bool
  | .i2cWrite => true
  | .miscReset | .miscGetId | .miscGetTemp | .gpioConfig | .gpioRead | .gpioWrite => false
  | .analogRead | .analogReadAll | .i2cConfig | .i2cRead => false
  | .servoConfig | .servoSet | .counterConfig | .counterRead => false

/-! ## The parameters: constraints and defaults (00_scope.md R7, 30_encoding.md R86, R87) -/

/-- A power of two, at least 1. -/
def powerOfTwo (n : Nat) : Bool := 2 ^ n.log2 == n

/-- The data tags are pairwise distinct within each class (R87). -/
def Params.tagsDistinct (p : Params) : Bool :=
  [Cls.misc, .gpio, .analog, .i2c, .servo, .counter].all fun c =>
    decide (c.commands.map (Cmd.tag p)).Nodup

/-- The three data tags the document's examples fix: Misc Reset = 1, GPIO Write = 3, Analog Read = 2 (R86, R87). -/
def Params.tagsFixed (p : Params) : Bool :=
  p.dt.miscReset == 1 && p.dt.gpioWrite == 3 && p.dt.analogRead == 2

/-- The constraints on the parameters (00_scope.md R7, 30_encoding.md R87). `TX_CAP` of at least 16 is a recommendation
(R7: for the largest reply to fit an empty buffer; 95_test_vectors.md T4 takes 8) and no constraint. -/
def Params.ok (p : Params) : Bool :=
  powerOfTwo p.rxCap && powerOfTwo p.txCap && p.tagsDistinct && p.tagsFixed

/-- The default data tags (R86, 92_eei_decisions.md D5; log 21). -/
def TagTable.default : TagTable where
  miscReset := 1
  miscGetId := 2
  miscGetTemp := 3
  gpioConfig := 1
  gpioRead := 2
  gpioWrite := 3
  analogRead := 2
  analogReadAll := 3
  i2cConfig := 1
  i2cRead := 2
  i2cWrite := 3
  servoConfig := 1
  servoSet := 2
  counterConfig := 1
  counterRead := 2

/-- The default parameters (00_scope.md R7; log 2). -/
def Params.default : Params where
  rxCap := 64
  txCap := 64
  i2cRdCap := 8
  boardId := 0x0000
  gpioOptMask := 0x07
  cntOptMask := 0x03
  dt := TagTable.default

/-! ## Decoding a frame -/

/-- The three fixed argument bytes `a0`, `a1`, `a2` of R82; `ps.args` of 10_state.md R24. -/
structure Args where
  a0 : Byte
  a1 : Byte
  a2 : Byte
deriving DecidableEq, Repr

/-- `args[i] <- b`; there is no fourth argument byte (30_encoding.md R83). -/
def Args.set (a : Args) (i : Nat) (b : Byte) : Args :=
  match i with
  | 0 => { a with a0 := b }
  | 1 => { a with a1 := b }
  | 2 => { a with a2 := b }
  | _ => a

/-- The argument bytes in arrival order. -/
def Args.toList (a : Args) : List Byte := [a.a0, a.a1, a.a2]

/-- The arguments a list of at most three bytes fills, in arrival order; the rest is 0. -/
def Args.ofList (l : List Byte) : Args := ⟨l.getD 0 0, l.getD 1 0, l.getD 2 0⟩

/-- The instruction that a command's tag, argument bytes, data bytes and checksum byte make (30_encoding.md R83, R88). -/
def assemble (m : Cmd) (a : Args) (data : List Byte) (k : Byte) : Instr :=
  match m with
  | .miscReset => .miscReset k
  | .miscGetId => .miscGetId k
  | .miscGetTemp => .miscGetTemp k
  | .gpioConfig => .gpioConfig a.a0 a.a1 k
  | .gpioRead => .gpioRead a.a0 k
  | .gpioWrite => .gpioWrite a.a0 a.a1 k
  | .analogRead => .analogRead a.a0 k
  | .analogReadAll => .analogReadAll k
  | .i2cConfig => .i2cConfig a.a0 k
  | .i2cRead => .i2cRead a.a0 a.a1 a.a2 k
  | .i2cWrite => .i2cWrite a.a0 a.a1 a.a2 data k
  | .servoConfig => .servoConfig a.a0 (half a.a1 a.a2) k
  | .servoSet => .servoSet a.a0 (half a.a1 a.a2) k
  | .counterConfig => .counterConfig a.a0 a.a1 k
  | .counterRead => .counterRead a.a0 k

/-- Why a byte sequence is no frame. -/
inductive DecodeError where
  /-- the sequence ends before the frame does (no end marker exists, R80) -/
  | truncated
  /-- the first byte is not 1 to 6 (R97) -/
  | unknownClassTag (b : Byte)
  /-- the second byte selects no command of the class (R98) -/
  | unknownDataTag (c : Cls) (b : Byte)
deriving DecidableEq, Repr

/-- How many data bytes follow the arguments: `a2` for I2C Write, none otherwise (R100). -/
def Cmd.dataLength (m : Cmd) (a : Args) : Nat := if m.hasData then a.a2.toNat else 0

/-- The rest of a frame after its two tags: arguments, data bytes, checksum (R82, R100). -/
def decodeRest (m : Cmd) (bs : List Byte) : Except DecodeError (Instr × List Byte) :=
  if bs.length < m.nfix then .error .truncated
  else
    let a := Args.ofList (bs.take m.nfix)
    let d := m.dataLength a
    match (bs.drop m.nfix).drop d with
    | [] => .error .truncated
    | k :: rest => .ok (assemble m a ((bs.drop m.nfix).take d) k, rest)

/-- Decodes the frame at the front of a byte sequence: the instruction and the bytes after it. -/
def decode (p : Params) : List Byte → Except DecodeError (Instr × List Byte)
  | [] => .error .truncated
  | c :: bs =>
    match Cls.ofTag c with
    | none => .error (.unknownClassTag c)
    | some cls =>
      match bs with
      | [] => .error .truncated
      | t :: bs =>
        match lookup p cls t with
        | none => .error (.unknownDataTag cls t)
        | some m => decodeRest m bs

/-! ## Encoding -/

/-- The command of an instruction. -/
def Instr.cmd : Instr → Cmd
  | .miscReset _ => .miscReset
  | .miscGetId _ => .miscGetId
  | .miscGetTemp _ => .miscGetTemp
  | .gpioConfig _ _ _ => .gpioConfig
  | .gpioRead _ _ => .gpioRead
  | .gpioWrite _ _ _ => .gpioWrite
  | .analogRead _ _ => .analogRead
  | .analogReadAll _ => .analogReadAll
  | .i2cConfig _ _ => .i2cConfig
  | .i2cRead _ _ _ _ => .i2cRead
  | .i2cWrite _ _ _ _ _ => .i2cWrite
  | .servoConfig _ _ _ => .servoConfig
  | .servoSet _ _ _ => .servoSet
  | .counterConfig _ _ _ => .counterConfig
  | .counterRead _ _ => .counterRead

/-- The fixed argument bytes of an instruction's frame, in wire order, 16-bit fields high byte first (R83, R88). -/
def Instr.argBytes : Instr → List Byte
  | .miscReset _ | .miscGetId _ | .miscGetTemp _ | .analogReadAll _ => []
  | .gpioConfig pin opt _ => [pin, opt]
  | .gpioRead pin _ => [pin]
  | .gpioWrite pin v _ => [pin, v]
  | .analogRead ch _ => [ch]
  | .i2cConfig sel _ => [sel]
  | .i2cRead addr off n _ => [addr, off, n]
  | .i2cWrite addr off n _ _ => [addr, off, n]
  | .servoConfig pin pw _ => [pin, hi8 pw, lo8 pw]
  | .servoSet pin pw _ => [pin, hi8 pw, lo8 pw]
  | .counterConfig pin opt _ => [pin, opt]
  | .counterRead pin _ => [pin]

/-- The data bytes of an instruction's frame: I2C Write only (R83). -/
def Instr.dataBytes : Instr → List Byte
  | .i2cWrite _ _ _ data _ => data
  | .miscReset _ | .miscGetId _ | .miscGetTemp _ => []
  | .gpioConfig _ _ _ | .gpioRead _ _ | .gpioWrite _ _ _ => []
  | .analogRead _ _ | .analogReadAll _ => []
  | .i2cConfig _ _ | .i2cRead _ _ _ _ => []
  | .servoConfig _ _ _ | .servoSet _ _ _ => []
  | .counterConfig _ _ _ | .counterRead _ _ => []

/-- The last byte of an instruction's frame, the checksum the host sent (R80). -/
def Instr.lastByte : Instr → Byte
  | .miscReset k | .miscGetId k | .miscGetTemp k | .analogReadAll k => k
  | .gpioConfig _ _ k | .gpioWrite _ _ k | .counterConfig _ _ k => k
  | .gpioRead _ k | .analogRead _ k | .i2cConfig _ k | .counterRead _ k => k
  | .i2cRead _ _ _ k | .i2cWrite _ _ _ _ k => k
  | .servoConfig _ _ k | .servoSet _ _ k => k

/-- Every byte of an instruction's frame before its last (R82). -/
def Instr.body (p : Params) (i : Instr) : List Byte :=
  [i.cmd.cls.tag, i.cmd.tag p] ++ i.argBytes ++ i.dataBytes

/-- The request frame of an instruction (R82). -/
def encode (p : Params) (i : Instr) : List Byte := i.body p ++ [i.lastByte]

/-! ## The host's table words -/

/-- The bytes of an instruction whose bits are `w`, numbered as spec/opcode_table.json numbers them: the table's word is
the 16-bit number {byte 0, byte 1} = class tag * 256 + data tag (30_encoding.md R104), so the FIRST byte on the wire is
bits 15..8 (log 20); a later byte `j` is bits 8j+7..8j; every bit at or above `nbits` is 0. A word of at most 32 bits has
a zero third argument, so its frame has at most six bytes; the longest has 261 (70_reset_and_hazards.md R240). -/
def tableBytes (nbits w : Nat) : List Byte :=
  let v := w % 2 ^ nbits
  let byte (j : Nat) : Byte := BitVec.ofNat 8 (v / 2 ^ (8 * j))
  let later := if nbits ≤ 32 then 4 else 259
  [byte 1, byte 0] ++ ((List.range later).map fun j => byte (j + 2))

/-- The instruction the decoder reads from a table word, at the default parameters. -/
def decodeTableWord (nbits w : Nat) : Option Instr :=
  match decode Params.default (tableBytes nbits w) with
  | .ok (i, _) => some i
  | .error _ => none

end Sys2Proof
end

