-- ==== Sys2Proof/Machine/State.lean ====
section
/-! DEFINITION. The state, as plain data: everything 10_state.md gives the block (the parser state and the two ring
buffers), the observation record of its R44, the parameters of 00_scope.md R7, and the model's own four fields that hold
what the spec leaves open (which event comes next, which interrupts fall inside a Decode, what the drivers have seen, how
long the Reset spin has lasted). -/

namespace Sys2Proof.Machine

/-- `ps.top` (10_state.md R21): `inSub c` is the spec's `In(c)`, so there are seven values. -/
inductive Top where
  | awaitingClassTag
  | inSub (c : Cls)
deriving DecidableEq, Repr

/-- `ps.phase` (10_state.md R22). -/
inductive Phase where
  | dataTag
  | args
  | payload
  | checksum
deriving DecidableEq, Repr

/-- A byte memory: (address, byte) pairs in one canonical form (`Memory.wf` of Machine/Ops.lean). An unlisted address
reads as 0: the spec gives no contents at reset (10_state.md R43; log 4, unsafe). -/
abbrev Memory := List Host.Cell

/-- The parser state `ps` (10_state.md R20 to R27). -/
structure Parser where
  /-- R21, the outer program counter -/
  top    : Top
  /-- R22, the inner program counter -/
  phase  : Phase
  /-- R23, the data tag accepted -/
  op     : Byte
  /-- R24, argument bytes received so far -/
  idx    : Nat
  /-- R24 -/
  args   : Args
  /-- R25, data bytes received so far -/
  cnt    : Nat
  /-- R25, R35, the payload buffer, addresses 0 to 7 -/
  buf    : Memory
  /-- R26, the running checksum -/
  csum   : Byte
  /-- R27 -/
  halted : Bool
deriving DecidableEq, Repr

/-- A ring buffer (10_state.md R30): backing array, read pointer, write pointer, occupancy. Its capacity is a parameter
(`params.rxCap`, `params.txCap`). -/
structure Ring where
  arr : Memory
  rd  : Nat
  wr  : Nat
  occ : Nat
deriving DecidableEq, Repr

/-- The interrupt events (10_state.md R42, 60_exceptions.md R207). -/
inductive Irq where
  /-- `RxArrive(b)` -/
  | rxArrive (b : Byte)
  /-- `TxDrain` -/
  | txDrain
  /-- `Peripheral` -/
  | peripheral
deriving DecidableEq, Repr

/-- The events of the step relation (10_state.md R42). A `decode` carries the interrupt events that fall inside it: its
first list at the first point where one may fall (20_memory.md R66), its second at the second, and so on (log 7).
A reset falls between two events (log 8). -/
inductive Event where
  | irq (e : Irq)
  | decode (slots : List (List Irq))
  | watchdogReset
  | powerOnReset
deriving DecidableEq, Repr

/-- Why a step can fault. The block itself never does (40_dispatcher.md R130, 60_exceptions.md R219). -/
inductive Fault where
  /-- Raised by the decode step (Machine/MainLoop.lean) at a parser position to which no rule of 40_dispatcher.md gives a
  step: inside a sub-machine with an `op` that is no data tag of its class, or with more arguments or data bytes counted
  than the command has. No run reaches one. Safe: the machine stops where the spec says nothing (log 16). -/
  | impossiblePosition
deriving DecidableEq, Repr

/-- Why a step or a codec function refuses. -/
inductive Refusal where
  /-- Raised by an arm of `exec` whose instruction has no meaning yet; no arm is one. Safe. -/
  | notModelled (mnemonic : String)
  /-- Raised by `step` when the parameters break the constraints of 00_scope.md R7 and 30_encoding.md R87
  (60_exceptions.md R219 (3), 93_implementation_defined.md U15, U16). Safe (log 17). -/
  | badParameters
  /-- Raised by `verify` of the empty sequence (30_encoding.md R95, 93_implementation_defined.md U20). Safe (log 18). -/
  | verifyEmpty
deriving DecidableEq, Repr

/-- The state of the machine. -/
structure State where
  /-- the build-time parameters (00_scope.md R7); no step changes them (log 1) -/
  params   : Params
  /-- the parser state (10_state.md R20) -/
  ps       : Parser
  /-- the receive ring buffer (R32) -/
  rx       : Ring
  /-- the transmit ring buffer (R32) -/
  tx       : Ring
  /-- the bytes `TxDrain` has taken, in order (R44): an observation record -/
  wireOut  : List Byte
  /-- what has happened to the drivers, in order: it holds `drv_log` (R44), and the free values are functions of it
  (log 9, 11) -/
  drvTrace : List DrvEvent
  /-- the events still to happen, in order: the environment's choice (R42, R38; log 6) -/
  schedule : List Event
  /-- the turns the Reset spin has lasted (41_misc.md R140): the model's own count, which the free value of the watchdog's
  wait is compared with (60_exceptions.md R214; log 39) -/
  spin     : Nat
  /-- the interrupt events that still fall inside the Decode under way, one list per point (20_memory.md R66; log 7) -/
  slots    : List (List Irq)
deriving DecidableEq, Repr

/-- The parser state after reset: `AwaitingClassTag`, not halted (10_state.md R43); the fields R43 leaves unspecified are
zero and `DataTag` (log 3, unsafe, DESIGN CHOICE: R43 calls zero convenient and no run reads them). -/
def Parser.reset : Parser where
  top := .awaitingClassTag
  phase := .dataTag
  op := 0
  idx := 0
  args := ⟨0, 0, 0⟩
  cnt := 0
  buf := []
  csum := 0
  halted := false

/-- An empty ring buffer: `occ = 0`, `rd = wr = 0` (10_state.md R43; log 5). -/
def Ring.reset : Ring where
  arr := []
  rd := 0
  wr := 0
  occ := 0

/-- The state right after power-on (10_state.md R43): the parameters at their defaults (log 2), nothing observed yet,
nothing scheduled by the environment (log 6, 19). -/
def State.reset : State where
  params := Params.default
  ps := Parser.reset
  rx := Ring.reset
  tx := Ring.reset
  wireOut := []
  drvTrace := []
  schedule := []
  spin := 0
  slots := []

/-- What a meaning and a step answer. -/
abbrev Answer := Host.Outcome State Fault Refusal

end Sys2Proof.Machine
end

