-- ==== Sys2Proof/Machine/Flags.lean ====
section
/-! DEFINITION. The block keeps no condition codes (10_state.md R33); its only flag-like values are the status byte of a
reply and the three bits of a GPIO Read reply. -/

namespace Sys2Proof.Machine

/-- Status OK (00_scope.md R8, 30_encoding.md R93). -/
def statusOk : Byte := 1

/-- Status NOK. -/
def statusNok : Byte := 0

/-- A one-bit value as a byte. -/
def bitByte (x : Bool) : Byte := if x then 1 else 0

/-- The GPIO Read reply byte, `value | (rise << 1) | (fall << 2)`; bits 7:3 are 0 (30_encoding.md R90; log
29). -/
def gpioReadByte (g : GpioSample) : Byte :=
  bitByte g.value ||| (bitByte g.rise <<< 1) ||| (bitByte g.fall <<< 2)

end Sys2Proof.Machine
end

