-- ==== Sys2Proof/Machine/Operands.lean ====
section
/-! DEFINITION. The range checks of 40_dispatcher.md R125, each once, and the table that says which command makes which. -/

namespace Sys2Proof.Machine

/-- GPIO pins: 2 to 13 (00_scope.md R8). -/
def gpioPinOk (pin : Byte) : Bool := 2 ≤ pin.toNat && pin.toNat ≤ 13

/-- Analog channels: 0 to 5 (R8). -/
def channelOk (ch : Byte) : Bool := ch.toNat ≤ 5

/-- Servo pins: 2 to 7, 9 and 10 (R8). -/
def servoPinOk (pin : Byte) : Bool :=
  (2 ≤ pin.toNat && pin.toNat ≤ 7) || pin.toNat == 9 || pin.toNat == 10

/-- Counter pins: 2 or 3 (R8). -/
def counterPinOk (pin : Byte) : Bool := pin.toNat == 2 || pin.toNat == 3

/-- A two-valued field: the GPIO Write value and the I2C speed selector (30_encoding.md R93). -/
def isBit (v : Byte) : Bool := v == 0 || v == 1

/-- `(opt & ~mask) = 0` (30_encoding.md R89, R91). -/
def optionsOk (mask opt : Byte) : Bool := opt &&& ~~~mask == 0

/-- `valid(c, op, args)` (40_dispatcher.md R125): the range check of every command (log 23, 24, 27, 28). -/
def valid (p : Params) : Instr → Bool
  | .miscReset _ | .miscGetId _ | .miscGetTemp _ => true
  | .gpioConfig pin opt _ => gpioPinOk pin && optionsOk p.gpioOptMask opt
  | .gpioRead pin _ => gpioPinOk pin
  | .gpioWrite pin v _ => gpioPinOk pin && isBit v
  | .analogRead ch _ => channelOk ch
  | .analogReadAll _ => true
  | .i2cConfig sel _ => isBit sel
  | .i2cRead _ _ n _ => n.toNat ≤ p.i2cRdCap.toNat
  | .i2cWrite _ _ n _ _ => n.toNat ≤ i2cWrCap
  | .servoConfig pin _ _ => servoPinOk pin
  | .servoSet pin _ _ => servoPinOk pin
  | .counterConfig pin opt _ => counterPinOk pin && optionsOk p.cntOptMask opt
  | .counterRead pin _ => counterPinOk pin

end Sys2Proof.Machine
end

