-- ==== Sys2Proof/Machine/Ops.lean ====
section
/-! DEFINITION. The named operations every rule uses: the byte memories, the ring buffers (20_memory.md), the interrupt
events and the points at which they may fall, the driver calls (10_state.md R40), the replies (40_dispatcher.md R122 to
R124), the terminal step (R120, R121), the restart (10_state.md R43), and the codec's `verify`. -/

namespace Sys2Proof.Machine

/-! ## Byte memories -/

/-- The byte at an address; 0 where nothing is listed (log 4). -/
def Memory.read : Memory → Nat → Byte
  | [], _ => 0#8
  | (x, c) :: m, a => if x = a then c else Memory.read m a

/-- Writes one byte, keeping the canonical form: rising addresses, no listed 0. -/
def Memory.write : Memory → Nat → Byte → Memory
  | [], a, b => if b = 0#8 then [] else [(a, b)]
  | (x, c) :: m, a, b =>
    if a < x then (if b = 0#8 then (x, c) :: m else (a, b) :: (x, c) :: m)
    else if a = x then (if b = 0#8 then m else (a, b) :: m)
    else (x, c) :: Memory.write m a b

/-- Every listed address is at least `lo`, addresses rise strictly, no listed byte is 0. -/
def Memory.wfFrom : Nat → Memory → Bool
  | _, [] => true
  | lo, (x, c) :: m => decide (lo ≤ x) && decide (c ≠ 0#8) && Memory.wfFrom (x + 1) m

/-- The canonical form: strictly rising addresses, no entry equal to what an unlisted address reads as. -/
def Memory.wf (m : Memory) : Bool := Memory.wfFrom 0 m

/-- Every listed address lies in the array, 0 to `n - 1`. -/
def Memory.within (n : Nat) (m : Memory) : Bool := m.all fun c => c.1 < n

/-! ## Ring buffers (20_memory.md R51 to R54) -/

/-- A pointer's `log2(CAP)` bits (R51, R70; log 32): the masking arithmetic `p & (CAP - 1)`. -/
def Ring.mask (cap p : Nat) : Nat := p &&& (cap - 1)

/-- `push(b)` (R52): the new buffer and whether the byte was stored. A full buffer does not change. -/
def Ring.push (cap : Nat) (r : Ring) (b : Byte) : Ring × Bool :=
  if r.occ < cap then
    (⟨Memory.write r.arr (Ring.mask cap r.wr) b, r.rd, Ring.mask cap (r.wr + 1), r.occ + 1⟩, true)
  else (r, false)

/-- `pop()` (R53): the oldest byte and the buffer without it, or nothing. The array is not written. -/
def Ring.pop (cap : Nat) (r : Ring) : Option (Byte × Ring) :=
  if 0 < r.occ then
    some (Memory.read r.arr (Ring.mask cap r.rd), ⟨r.arr, Ring.mask cap (r.rd + 1), r.wr, r.occ - 1⟩)
  else none

/-- `avail()` (R54). -/
def Ring.avail (r : Ring) : Bool := 0 < r.occ

/-- The bytes held, oldest first (10_state.md R31 (d)). -/
def Ring.bytes (cap : Nat) (r : Ring) : List Byte :=
  (List.range r.occ).map fun i => Memory.read r.arr ((r.rd + i) % cap)

/-- The invariants of a ring buffer (10_state.md R31), its pointers' ranges (R30) and its array's canonical form. -/
def Ring.wf (cap : Nat) (r : Ring) : Bool :=
  decide (r.occ ≤ cap) && decide (r.rd < cap) && decide (r.wr = (r.rd + r.occ) % cap) &&
    Memory.wf r.arr && Memory.within cap r.arr

/-! ## Updates of the state, one per field -/

/-- Writes the parser state. -/
def State.withPs (s : State) (ps : Parser) : State := { s with ps := ps }

/-- Writes the receive ring buffer. -/
def State.withRx (s : State) (r : Ring) : State := { s with rx := r }

/-- Writes the transmit ring buffer. -/
def State.withTx (s : State) (r : Ring) : State := { s with tx := r }

/-- Puts one more byte on the wire (10_state.md R44, 20_memory.md R59). -/
def State.wire (s : State) (b : Byte) : State := { s with wireOut := s.wireOut ++ [b] }

/-- Records one more event of the drivers' history (10_state.md R44). -/
def State.driver (s : State) (e : DrvEvent) : State := { s with drvTrace := s.drvTrace ++ [e] }

/-- Writes the events still to happen. -/
def State.withSchedule (s : State) (es : List Event) : State := { s with schedule := es }

/-- Writes the count of the Reset spin's turns. -/
def State.withSpin (s : State) (n : Nat) : State := { s with spin := n }

/-- Writes the interrupt events that still fall inside the Decode under way. -/
def State.withSlots (s : State) (sl : List (List Irq)) : State := { s with slots := sl }

/-- The driver call an entry of the drivers' history records. -/
def DrvEvent.call? : DrvEvent → Option DrvCall
  | .call c => some c
  | .peripheral => none
  | .restart => none

/-- `drv_log`: the driver calls made, in order (10_state.md R44). -/
def State.drvLog (s : State) : List DrvCall := s.drvTrace.filterMap DrvEvent.call?

/-- The bytes waiting in `rx`, oldest first. -/
def State.rxBytes (s : State) : List Byte := s.rx.bytes s.params.rxCap

/-- The bytes waiting in `tx`, oldest first. -/
def State.txBytes (s : State) : List Byte := s.tx.bytes s.params.txCap

/-- Every reply byte stored so far: those already on the wire, then those waiting in `tx`. -/
def State.sent (s : State) : List Byte := s.wireOut ++ s.txBytes

/-- The free positions of `tx`. -/
def State.txRoom (s : State) : Nat := s.params.txCap - s.tx.occ

/-! ## Interrupt events (20_memory.md R58, R59; 10_state.md R42) -/

/-- `rx.push(b)`, the result ignored: a byte offered to a full buffer is lost (R58; log 31). -/
def rxArrive (b : Byte) (s : State) : State := s.withRx (s.rx.push s.params.rxCap b).1

/-- `tx.pop()` and the byte goes on the wire; nothing when `tx` is empty (R59). -/
def txDrain (s : State) : State :=
  match s.tx.pop s.params.txCap with
  | none => s
  | some (b, r) => (s.withTx r).wire b

/-- One interrupt event. `Peripheral` changes driver state only (R42). -/
def runIrq : Irq → State → State
  | .rxArrive b, s => rxArrive b s
  | .txDrain, s => txDrain s
  | .peripheral, s => s.driver .peripheral

/-- Interrupt events one after the other. -/
def runIrqs : List Irq → State → State
  | [], s => s
  | e :: es, s => runIrqs es (runIrq e s)

/-- A point inside a Decode at which interrupt events may fall (20_memory.md R66): the next list of `slots` happens. -/
def preempt (s : State) : State :=
  match s.slots with
  | [] => s
  | es :: rest => runIrqs es (s.withSlots rest)

/-- The end of a Decode: interrupt events for which it had no point left happen now (log 7). -/
def endDecode (s : State) : State := runIrqs s.slots.flatten (s.withSlots [])

/-! ## Driver calls (10_state.md R40): each is one atomic piece, so interrupt events may fall just before it (R66). No
call fails, and every call returns (log 10). -/

/-- A call that returns nothing. -/
def drvCall (c : DrvCall) (s : State) : State := (preempt s).driver (.call c)

/-- `drv.temp_sample()`. -/
def drvTempSample (s : State) : Half × State :=
  let s := preempt s
  let t := Config.tempSample s.drvTrace
  (t, s.driver (.call (.tempSample t)))

/-- `drv.gpio_read(pin)`: the driver samples and clears the edge flags in the same atomic call (20_memory.md R68). -/
def drvGpioRead (pin : Byte) (s : State) : GpioSample × State :=
  let s := preempt s
  let g := Config.gpioRead s.drvTrace pin
  (g, s.driver (.call (.gpioRead pin g)))

/-- `drv.adc_read(ch)`. -/
def drvAdcRead (ch : Byte) (s : State) : Half × State :=
  let s := preempt s
  let r := Config.adcRead s.drvTrace ch
  (r, s.driver (.call (.adcRead ch r)))

/-- `drv.adc_read` of several channels in the order given (43_analog.md R161). -/
def drvAdcReads : List Byte → State → List Half × State
  | [], s => ([], s)
  | ch :: chs, s =>
    let r := drvAdcRead ch s
    let rs := drvAdcReads chs r.2
    (r.1 :: rs.1, rs.2)

/-- `drv.i2c_read(addr, off, n)`: `n` bytes in bus order. -/
def drvI2cRead (addr off n : Byte) (s : State) : List Byte × State :=
  let s := preempt s
  let bs := (List.range n.toNat).map (Config.i2cReadByte s.drvTrace addr off n)
  (bs, s.driver (.call (.i2cRead addr off n bs)))

/-- `drv.counter_read(pin)`: the driver clears the count in the same atomic call (20_memory.md R68). -/
def drvCounterRead (pin : Byte) (s : State) : Byte × State :=
  let s := preempt s
  let n := Config.counterRead s.drvTrace pin
  (n, s.driver (.call (.counterRead pin n)))

/-! ## Replies (40_dispatcher.md R122 to R124) -/

/-- `tx.push(b)`, the result ignored: a byte offered to a full buffer is dropped (20_memory.md R60). -/
def txPush (b : Byte) (s : State) : State := s.withTx (s.tx.push s.params.txCap b).1

/-- `emit(f)` (R124): the bytes in order, each push its own atomic piece, interrupt events possible before each (R66); it
never waits (log 26). -/
def emit : List Byte → State → State
  | [], s => s
  | b :: f, s => emit f (txPush b (preempt s))

/-- The frame of an OK reply to a command: the echoed tags (log 33), status 1, the result data, the checksum (R122). -/
def okFrame (p : Params) (m : Cmd) (data : List Byte) : List Byte :=
  frameOf ([m.cls.tag, m.tag p, statusOk] ++ data)

/-- The four-byte frame of a NOK reply (R123, 30_encoding.md R84; log 25, 33). -/
def nokFrame (p : Params) (m : Cmd) : List Byte :=
  frameOf [m.cls.tag, m.tag p, statusNok]

/-- `ps.top <- AwaitingClassTag`, the end of every terminal step (R121). -/
def awaitNext (s : State) : State := s.withPs { s.ps with top := .awaitingClassTag }

/-- `halt()` (41_misc.md R140). -/
def halt (s : State) : State := s.withPs { s.ps with halted := true }

/-- `reply_ok(data)` (R122) and the return to `AwaitingClassTag` (R121). -/
def replyOk (m : Cmd) (data : List Byte) (s : State) : State :=
  awaitNext (emit (okFrame s.params m data) s)

/-- `reply_nok()` (R123) and the return to `AwaitingClassTag` (R121). -/
def replyNok (m : Cmd) (s : State) : State :=
  awaitNext (emit (nokFrame s.params m) s)

/-- The terminal step (R120) of a command whose last byte is `k`, whose arguments are in range when `inRange`, and whose
driver calls are `run` (the result data and the state after them): on success the calls, then the OK reply with that
data; on a wrong checksum or a bad argument the NOK reply and no call at all. -/
def terminal (m : Cmd) (k : Byte) (inRange : Bool) (run : State → List Byte × State) (s : State) : Answer :=
  if k = s.ps.csum ∧ inRange = true then .next (replyOk m (run s).1 (run s).2)
  else .next (replyNok m s)

/-- The driver calls of a command that returns no data. -/
def noData (f : State → State) (s : State) : List Byte × State := ([], f s)

/-! ## Restart: the one event in the place of an exception (60_exceptions.md R210) -/

/-- `PowerOnReset` and `WatchdogReset` (70_reset_and_hazards.md R230, 10_state.md R43): every piece of the block's state
takes its reset value. The parameters (60_exceptions.md R218), the observation record and the environment's schedule
stay; the drivers' history gains the restart (R232; log 11, 35). -/
def restart (s : State) : State :=
  { State.reset with
    params := s.params, wireOut := s.wireOut, drvTrace := s.drvTrace ++ [.restart], schedule := s.schedule }

/-! ## The codec's `verify` -/

/-- `verify(f)` (30_encoding.md R95): recompute over all but the last byte and compare; refused for the empty sequence. -/
def verify (f : List Byte) : Except Refusal Bool :=
  match f.getLast? with
  | none => .error .verifyEmpty
  | some k => .ok (checksum f.dropLast == k)

end Sys2Proof.Machine
end

