-- ==== Sys2Proof/Machine/Analog.lean ====
section
/-! DEFINITION. The Analog commands (43_analog.md). -/

namespace Sys2Proof.Machine

/-- A reading as two reply bytes, high byte first (20_memory.md R61). -/
def readingBytes (r : Half) : List Byte := [hi8 r, lo8 r]

/-- `ANALOG.READ ch` (R160). -/
def execAnalogRead (ch k : Byte) (s : State) : Answer :=
  terminal .analogRead k (channelOk ch)
    (fun s => (readingBytes (drvAdcRead ch s).1, (drvAdcRead ch s).2)) s

/-- The six channels in the order in which ReadAll samples and reports them: ascending (R161; log 29). -/
def allChannels : List Byte := [0, 1, 2, 3, 4, 5]

/-- `ANALOG.READALL` (R161): six samples, all taken before the first reply byte. -/
def execAnalogReadAll (k : Byte) (s : State) : Answer :=
  terminal .analogReadAll k true
    (fun s => ((drvAdcReads allChannels s).1.flatMap readingBytes, (drvAdcReads allChannels s).2)) s

end Sys2Proof.Machine
end

