-- ==== Sys2Proof/Machine/Counter.lean ====
section
/-! DEFINITION. The Counter commands (46_counter.md). -/

namespace Sys2Proof.Machine

/-- `COUNTER.CONFIG pin, opt` (R190): the options byte goes to the driver whole. -/
def execCounterConfig (pin opt k : Byte) (s : State) : Answer :=
  terminal .counterConfig k (counterPinOk pin && optionsOk s.params.cntOptMask opt)
    (noData (drvCall (.counterConfig pin opt))) s

/-- `COUNTER.READ pin` (R191). -/
def execCounterRead (pin k : Byte) (s : State) : Answer :=
  terminal .counterRead k (counterPinOk pin)
    (fun s => ([(drvCounterRead pin s).1], (drvCounterRead pin s).2)) s

end Sys2Proof.Machine
end

