-- ==== Sys2Proof/Machine/Gpio.lean ====
section
/-! DEFINITION. The GPIO commands (42_gpio.md). -/

namespace Sys2Proof.Machine

/-- `GPIO.CONFIG pin, opt` (R150): the options byte goes to the driver whole. -/
def execGpioConfig (pin opt k : Byte) (s : State) : Answer :=
  terminal .gpioConfig k (gpioPinOk pin && optionsOk s.params.gpioOptMask opt)
    (noData (drvCall (.gpioConfig pin opt))) s

/-- `GPIO.READ pin` (R151): value, rise and fall in bits 0, 1 and 2 of one byte. -/
def execGpioRead (pin k : Byte) (s : State) : Answer :=
  terminal .gpioRead k (gpioPinOk pin)
    (fun s => ([gpioReadByte (drvGpioRead pin s).1], (drvGpioRead pin s).2)) s

/-- `GPIO.WRITE pin, v` (R152). -/
def execGpioWrite (pin v k : Byte) (s : State) : Answer :=
  terminal .gpioWrite k (gpioPinOk pin && isBit v) (noData (drvCall (.gpioWrite pin v))) s

end Sys2Proof.Machine
end

