-- ==== Sys2Proof/Machine/I2c.lean ====
section
/-! DEFINITION. The I2C commands (44_i2c.md). -/

namespace Sys2Proof.Machine

/-- `I2C.CONFIG sel` (R170). -/
def execI2cConfig (sel k : Byte) (s : State) : Answer :=
  terminal .i2cConfig k (isBit sel) (noData (drvCall (.i2cConfig sel))) s

/-- `I2C.READ addr, off, n` (R171): address and offset unchecked; `n = 0` is valid. -/
def execI2cRead (addr off n k : Byte) (s : State) : Answer :=
  terminal .i2cRead k (n.toNat ≤ s.params.i2cRdCap.toNat) (drvI2cRead addr off n) s

/-- `I2C.WRITE addr, off, data` with length byte `n` (R172): the driver gets the `n` data bytes in arrival order; more
than eight are refused. -/
def execI2cWrite (addr off n : Byte) (data : List Byte) (k : Byte) (s : State) : Answer :=
  terminal .i2cWrite k (n.toNat ≤ i2cWrCap) (noData (drvCall (.i2cWrite addr off data))) s

end Sys2Proof.Machine
end

