-- ==== Sys2Proof/Machine/Misc.lean ====
section
/-! DEFINITION. The Misc commands (41_misc.md). -/

namespace Sys2Proof.Machine

/-- `MISC.RESET` (R140): on a good checksum the OK reply is queued, then the main loop halts until the watchdog restarts
the device; on a bad one, NOK and no halt. -/
def execMiscReset (k : Byte) (s : State) : Answer :=
  if k = s.ps.csum then .next (halt (replyOk .miscReset [] s)) else .next (replyNok .miscReset s)

/-- `MISC.GETID` (R141): the board identifier, high byte first; no driver call. -/
def execMiscGetId (k : Byte) (s : State) : Answer :=
  terminal .miscGetId k true (fun s => ([hi8 s.params.boardId, lo8 s.params.boardId], s)) s

/-- `MISC.GETTEMP` (R142): the raw reading, high byte first. -/
def execMiscGetTemp (k : Byte) (s : State) : Answer :=
  terminal .miscGetTemp k true
    (fun s => ([hi8 (drvTempSample s).1, lo8 (drvTempSample s).1], (drvTempSample s).2)) s

end Sys2Proof.Machine
end

