-- ==== Sys2Proof/Machine/Servo.lean ====
section
/-! DEFINITION. The Servo commands (45_servo.md). The pulse width is never checked and reaches the driver unclamped. -/

namespace Sys2Proof.Machine

/-- `SERVO.CONFIG pin, pw` (R180). -/
def execServoConfig (pin : Byte) (pw : Half) (k : Byte) (s : State) : Answer :=
  terminal .servoConfig k (servoPinOk pin) (noData (drvCall (.servoConfig pin pw))) s

/-- `SERVO.SET pin, pw` (R181). -/
def execServoSet (pin : Byte) (pw : Half) (k : Byte) (s : State) : Answer :=
  terminal .servoSet k (servoPinOk pin) (noData (drvCall (.servoSet pin pw))) s

end Sys2Proof.Machine
end

