-- ==== Sys2Proof/Machine/Dispatch.lean ====
section
/-! DEFINITION. `exec`: the terminal step of one command (40_dispatcher.md R120, R126), one arm per constructor. -/

namespace Sys2Proof.Machine

def exec (i : Instr) (s : State) : Host.Outcome State Fault Refusal :=
  match i with
  | .miscReset k => Sys2Proof.Machine.execMiscReset k s
  | .miscGetId k => Sys2Proof.Machine.execMiscGetId k s
  | .miscGetTemp k => Sys2Proof.Machine.execMiscGetTemp k s
  | .gpioConfig pin opt k => Sys2Proof.Machine.execGpioConfig pin opt k s
  | .gpioRead pin k => Sys2Proof.Machine.execGpioRead pin k s
  | .gpioWrite pin v k => Sys2Proof.Machine.execGpioWrite pin v k s
  | .analogRead ch k => Sys2Proof.Machine.execAnalogRead ch k s
  | .analogReadAll k => Sys2Proof.Machine.execAnalogReadAll k s
  | .i2cConfig sel k => Sys2Proof.Machine.execI2cConfig sel k s
  | .i2cRead addr off n k => Sys2Proof.Machine.execI2cRead addr off n k s
  | .i2cWrite addr off n data k => Sys2Proof.Machine.execI2cWrite addr off n data k s
  | .servoConfig pin pw k => Sys2Proof.Machine.execServoConfig pin pw k s
  | .servoSet pin pw k => Sys2Proof.Machine.execServoSet pin pw k s
  | .counterConfig pin opt k => Sys2Proof.Machine.execCounterConfig pin opt k s
  | .counterRead pin k => Sys2Proof.Machine.execCounterRead pin k s

end Sys2Proof.Machine
end

