-- ==== Sys2Proof/Machine/MainLoop.lean ====
section
/-! DEFINITION. The main loop and the dispatcher (40_dispatcher.md R110 to R121, R129): what the block does with one byte
popped from `rx`, the events of 10_state.md R42, and how a frame is placed so that the next step runs it. -/

namespace Sys2Proof.Machine

/-! ## The five arms of the decode step (R110) -/

/-- `step_await(b)`: a known class tag opens its sub-machine (R111), any other byte is discarded (R112). -/
def stepAwait (b : Byte) (s : State) : State :=
  match Cls.ofTag b with
  | some c =>
    s.withPs { s.ps with top := .inSub c, phase := .dataTag, idx := 0, cnt := 0, csum := b }
  | none => s

/-- `step_datatag(b)`: a known data tag selects the command (R113); any other byte is discarded, the checksum included,
and the sub-machine goes on waiting (R114; log 22). -/
def stepDataTag (c : Cls) (b : Byte) (s : State) : State :=
  match lookup s.params c b with
  | some m =>
    s.withPs { s.ps with
      op := b, csum := s.ps.csum + b, phase := if m.nfix = 0 then .checksum else .args }
  | none => s

/-- `next_after_args()` (R117, R118): data bytes follow only for an I2C Write of length at least 1. -/
def afterArgs (m : Cmd) (a : Args) : Phase :=
  if m.hasData ∧ 0 < a.a2.toNat then .payload else .checksum

/-- `step_args(b)` (R116): the byte is stored whatever its value. -/
def stepArgs (c : Cls) (b : Byte) (s : State) : Answer :=
  match lookup s.params c s.ps.op with
  | none => .fault .impossiblePosition
  | some m =>
    if s.ps.idx < m.nfix then
      let a := s.ps.args.set s.ps.idx b
      .next (s.withPs { s.ps with
        args := a, idx := s.ps.idx + 1, csum := s.ps.csum + b,
        phase := if s.ps.idx + 1 = m.nfix then afterArgs m a else .args })
    else .fault .impossiblePosition

/-- `step_payload(b)` (R119): every data byte is counted and summed, the first eight are stored. -/
def stepPayload (c : Cls) (b : Byte) (s : State) : Answer :=
  if lookup s.params c s.ps.op = some .i2cWrite ∧ s.ps.cnt < s.ps.args.a2.toNat then
    .next (s.withPs { s.ps with
      buf := if s.ps.cnt < i2cWrCap then Memory.write s.ps.buf s.ps.cnt b else s.ps.buf
      cnt := s.ps.cnt + 1, csum := s.ps.csum + b,
      phase := if s.ps.cnt + 1 = s.ps.args.a2.toNat then .checksum else .payload })
  else .fault .impossiblePosition

/-- The data bytes a terminal step has at hand: the first `min(n, 8)` of an I2C Write's, in `ps.buf` (44_i2c.md R172);
none for any other command. -/
def keptData (m : Cmd) (ps : Parser) : List Byte :=
  (List.range (min (m.dataLength ps.args) i2cWrCap)).map (Memory.read ps.buf)

/-- The instruction the dispatcher has accumulated when its last byte `k` arrives (log 14, 15). -/
def accumulated (m : Cmd) (ps : Parser) (k : Byte) : Instr :=
  assemble m ps.args (keptData m ps) k

/-- `step_checksum(b)` (R120): the terminal step, which runs the accumulated instruction. -/
def stepChecksum (c : Cls) (b : Byte) (s : State) : Answer :=
  match lookup s.params c s.ps.op with
  | none => .fault .impossiblePosition
  | some m => exec (accumulated m s.ps b) s

/-- `DecodeByte(b)` (R110): exactly one of the five arms. -/
def decodeByte (b : Byte) (s : State) : Answer :=
  match s.ps.top with
  | .awaitingClassTag => .next (stepAwait b s)
  | .inSub c =>
    match s.ps.phase with
    | .dataTag => .next (stepDataTag c b s)
    | .args => stepArgs c b s
    | .payload => stepPayload c b s
    | .checksum => stepChecksum c b s

/-! ## Events (10_state.md R42) -/

/-- Goes on from a next state; a stop stays a stop. -/
def andThen (r : Answer) (f : State → State) : Answer :=
  match r with
  | .next s => .next (f s)
  | .fault e => .fault e
  | .refused e => .refused e

/-- One turn of the main loop's inner `while` (R129): pops a byte and decodes it; polls when `rx` is empty; spins when
halted (41_misc.md R140; log 30). -/
def mainLoop (s : State) : Answer :=
  if s.ps.halted then .next (endDecode s)
  else
    match s.rx.pop s.params.rxCap with
    | none => .next (endDecode s)
    | some (b, r) => andThen (decodeByte b (s.withRx r)) endDecode

/-- `WatchdogReset`, enabled exactly when halted (60_exceptions.md R214; log 12); passed over otherwise (log 13). -/
def watchdogReset (s : State) : State := if s.ps.halted then restart s else s

/-- A turn of the Reset spin with no event scheduled (41_misc.md R140): when the spin has lasted the watchdog's wait, of
which nothing is known, the device is restarted; until then `tx` drains and the spin goes on. So every spin ends, and no
bound is set on when (60_exceptions.md R214; log 39). -/
def spinTurn (s : State) : State :=
  if Config.watchdogTurns s.drvTrace ≤ s.spin then watchdogReset s else (txDrain s).withSpin (s.spin + 1)

/-- What happens when the environment has nothing scheduled: one of the three events that weak fairness says occur at last
when they stay enabled (70_reset_and_hazards.md R250, 92_eei_decisions.md D24; log 6). Halted, a turn of the spin; with a
byte in `rx`, a Decode; otherwise a TxDrain, and nothing at all when `tx` is empty as well. -/
def unscheduled (s : State) : Answer :=
  if s.ps.halted then .next (spinTurn s)
  else if s.rx.avail then mainLoop s
  else .next (txDrain s)

/-- The next event the environment has scheduled; when it has none, the event that fairness asks for (log 6). -/
def nextEvent (s : State) : Answer :=
  match s.schedule with
  | [] => unscheduled s
  | .irq e :: es => .next (runIrq e (s.withSchedule es))
  | .decode slots :: es => mainLoop ((s.withSchedule es).withSlots slots)
  | .watchdogReset :: es => .next (watchdogReset (s.withSchedule es))
  | .powerOnReset :: es => .next (restart (s.withSchedule es))

/-- One step: refused under parameters outside their constraints (60_exceptions.md R219 (3); log 17). -/
def runStep (s : State) : Answer :=
  if s.params.ok then nextEvent s else .refused .badParameters

/-! ## Placing a frame (log 19) -/

/-- Arguments stored one after the other from position `i` (R116). -/
def storeArgs : Args → Nat → List Byte → Args
  | a, _, [] => a
  | a, i, b :: bs => storeArgs (a.set i b) (i + 1) bs

/-- Data bytes stored one after the other from position `i`, those beyond the eighth not (R119). -/
def storeData : Memory → Nat → List Byte → Memory
  | m, _, [] => m
  | m, i, b :: bs => storeData (if i < i2cWrCap then Memory.write m i b else m) (i + 1) bs

/-- The parser state after every byte of an instruction's frame but the last. -/
def holding (p : Params) (i : Instr) (ps : Parser) : Parser where
  top := .inSub i.cmd.cls
  phase := .checksum
  op := i.cmd.tag p
  idx := i.cmd.nfix
  args := storeArgs ps.args 0 i.argBytes
  cnt := i.dataBytes.length
  buf := storeData ps.buf 0 i.dataBytes
  csum := checksum (i.body p)
  halted := false

/-- A ring buffer that holds the bytes pushed into an empty one. -/
def ringOf (cap : Nat) (bs : List Byte) : Ring := bs.foldl (fun r b => (r.push cap b).1) Ring.reset

/-- The state in which the very next step runs `i`: its frame but the last byte already accumulated, its last byte alone
in `rx`, nothing scheduled before it. -/
def placeInstr (i : Instr) (s : State) : State :=
  (((s.withPs (holding s.params i s.ps)).withRx (ringOf s.params.rxCap [i.lastByte])).withSchedule []).withSlots []

/-- The state in which the next steps decode bytes that are no frame, from `AwaitingClassTag`. -/
def placeBytes (bs : List Byte) (s : State) : State :=
  (((s.withPs { s.ps with top := .awaitingClassTag, halted := false }).withRx
    (ringOf s.params.rxCap bs)).withSchedule []).withSlots []

/-- The state in which the next step runs the instruction of a table word. -/
def placeWord (nbits w : Nat) (s : State) : State :=
  match decode s.params (tableBytes nbits w) with
  | .ok (i, _) => placeInstr i s
  | .error _ => placeBytes ((tableBytes nbits w).take 2) s

end Sys2Proof.Machine
end

