-- ==== Sys2Proof/Machine/Step.lean ====
section
/-! DEFINITION. The step of the machine: one event (10_state.md R42). -/

namespace Sys2Proof.Machine

/-- One step: the next scheduled event, or the one that fairness asks for (Machine/MainLoop.lean). -/
def step (s : State) : Host.Outcome State Fault Refusal := runStep s

/-- `s` with the instruction of a table word placed where the next step runs it (log 19, 20). -/
def State.withFetchWord (s : State) (nbits w : Nat) : State := placeWord nbits w s

end Sys2Proof.Machine
end

