-- ==== Sys2Proof/Safety.lean ====
section
/-! DEFINITION. The terms claims use: the invariant of the machine, the running-checksum invariant, the ends of a run
(70_reset_and_hazards.md R252), and the named assumptions about drivers (93_implementation_defined.md A2, A3). -/

namespace Sys2Proof.Machine

/-- The counters of the parser agree with its position: what 40_dispatcher.md R116, R119 and R120 give as the conditions
of their arms, and 10_state.md R22 to R25 as the fields' meaning. -/
def positionOk (p : Params) (ps : Parser) : Bool :=
  match ps.top with
  | .awaitingClassTag => true
  | .inSub c =>
    match ps.phase with
    | .dataTag => ps.idx == 0 && ps.cnt == 0
    | .args =>
      match lookup p c ps.op with
      | none => false
      | some m => decide (ps.idx < m.nfix) && ps.cnt == 0
    | .payload =>
      lookup p c ps.op == some .i2cWrite && ps.idx == 3 && decide (ps.cnt < ps.args.a2.toNat)
    | .checksum =>
      match lookup p c ps.op with
      | none => false
      | some m => ps.idx == m.nfix && ps.cnt == m.dataLength ps.args

/-- A well-formed parser state: the ranges of 10_state.md R24 and R25, the payload buffer in canonical form at addresses
0 to 7 (R35), a position the dispatcher can be in, and no frame in progress while halted (41_misc.md R140). -/
def parserOk (p : Params) (ps : Parser) : Bool :=
  decide (ps.idx ≤ 3) && decide (ps.cnt ≤ 255) && Memory.wf ps.buf && Memory.within i2cWrCap ps.buf &&
    positionOk p ps && (!ps.halted || ps.top == .awaitingClassTag)

/-- The invariant of the machine: legal parameters (00_scope.md R7), both ring buffers as 10_state.md R31 says, a
well-formed parser state, no interrupt left over from a Decode, and no turn of the Reset spin counted outside it. -/
def State.Inv (s : State) : Prop :=
  s.params.ok = true ∧ s.rx.wf s.params.rxCap = true ∧ s.tx.wf s.params.txCap = true ∧
    parserOk s.params s.ps = true ∧ s.slots = [] ∧ (s.ps.halted = false → s.spin = 0)

/-- The bytes of the current frame received so far, as far as the parser keeps them (10_state.md R23 to R25). -/
def frameSoFar (c : Cls) (ps : Parser) : List Byte :=
  match ps.phase with
  | .dataTag => [c.tag]
  | .args | .payload | .checksum =>
    [c.tag, ps.op] ++ ps.args.toList.take ps.idx ++ (List.range ps.cnt).map (Memory.read ps.buf)

/-- The running checksum is the sum of every byte of the frame so far (10_state.md R26). A frame with more than eight
data bytes is not kept whole (R25), so nothing is said of it. -/
def State.SumInv (s : State) : Prop :=
  match s.ps.top with
  | .awaitingClassTag => True
  | .inSub c => s.ps.cnt ≤ i2cWrCap → s.ps.csum = checksum (frameSoFar c s.ps)

/-- A state whose `tx` has room for a reply of `n` bytes (40_dispatcher.md R124), under legal parameters. -/
def State.canReply (s : State) (n : Nat) : Prop :=
  s.params.ok = true ∧ s.tx.wf s.params.txCap = true ∧ s.tx.occ + n ≤ s.params.txCap

/-- The next step is a turn of the main loop that pops the byte `b` and leaves `r` (R129): legal parameters, nothing
scheduled before it, no interrupt event inside it, not halted. -/
def State.pops (s : State) (b : Byte) (r : Ring) : Prop :=
  s.params.ok = true ∧ s.schedule = [] ∧ s.slots = [] ∧ s.ps.halted = false ∧
    s.rx.pop s.params.rxCap = some (b, r)

/-- The next step is a Decode that pops the byte `b` and decodes it in `u` (10_state.md R42, 40_dispatcher.md R129): legal
parameters, not halted, and either nothing scheduled, `u` being `s` with the byte popped, or a Decode that the environment
has scheduled, `u` then having the events behind it as its schedule and the interrupt events that fall inside it as its
slots (20_memory.md R66; log 7). -/
def State.popsInto (s : State) (b : Byte) (u : State) : Prop :=
  s.params.ok = true ∧ s.ps.halted = false ∧
    ∃ r, s.rx.pop s.params.rxCap = some (b, r) ∧
      ((s.schedule = [] ∧ u = { s with rx := r }) ∨
       ∃ sl es, s.schedule = .decode sl :: es ∧ u = { s with rx := r, schedule := es, slots := sl })

/-- The bytes that a list of interrupt events brings in, in order (20_memory.md R58). -/
def arrivals (es : List Irq) : List Byte :=
  es.filterMap fun e => match e with
    | .rxArrive b => some b
    | .txDrain | .peripheral => none

/-- A ring buffer after bytes were pushed into it one after the other, those offered while it is full lost (R52, R58). -/
def Ring.receive (cap : Nat) (r : Ring) (bs : List Byte) : Ring := bs.foldl (fun r b => (r.push cap b).1) r

/-- What every reset leaves (10_state.md R43): the parser awaits a class tag and runs, both ring buffers are empty with
their pointers at 0. -/
def State.AtReset (s : State) : Prop :=
  s.ps.top = .awaitingClassTag ∧ s.ps.halted = false ∧
    s.rx.occ = 0 ∧ s.rx.rd = 0 ∧ s.rx.wr = 0 ∧ s.tx.occ = 0 ∧ s.tx.rd = 0 ∧ s.tx.wr = 0

/-- The machine is at rest: no event is scheduled, no byte waits in either ring buffer, and the device is not halted. A
frame may be in progress (40_dispatcher.md R128). -/
def State.AtRest (s : State) : Prop :=
  s.schedule = [] ∧ s.rx.occ = 0 ∧ s.tx.occ = 0 ∧ s.ps.halted = false

/-- The three operations of the transport contract (20_memory.md R50). -/
inductive RingOp where
  | push (b : Byte)
  | pop
  | avail
deriving DecidableEq, Repr

/-- What an operation of the transport answers. -/
inductive RingAnswer where
  | stored (ok : Bool)
  | popped (b : Option Byte)
  | avail (any : Bool)
deriving DecidableEq, Repr

/-- One operation on a ring buffer. -/
def Ring.run1 (cap : Nat) (r : Ring) : RingOp → RingAnswer × Ring
  | .push b => (.stored (r.push cap b).2, (r.push cap b).1)
  | .pop =>
    match r.pop cap with
    | none => (.popped none, r)
    | some (b, r') => (.popped (some b), r')
  | .avail => (.avail r.avail, r)

/-- One operation on the bounded list of 20_memory.md R56. -/
def queueRun1 (cap : Nat) (q : List Byte) : RingOp → RingAnswer × List Byte
  | .push b => if q.length < cap then (.stored true, q ++ [b]) else (.stored false, q)
  | .pop =>
    match q with
    | [] => (.popped none, [])
    | b :: q' => (.popped (some b), q')
  | .avail => (.avail (!q.isEmpty), q)

/-- Operations one after the other: the answers and the buffer. -/
def Ring.runOps (cap : Nat) : List RingOp → Ring → List RingAnswer × Ring
  | [], r => ([], r)
  | o :: os, r =>
    let x := r.run1 cap o
    let y := Ring.runOps cap os x.2
    (x.1 :: y.1, y.2)

/-- Operations one after the other on the bounded list. -/
def queueRunOps (cap : Nat) : List RingOp → List Byte → List RingAnswer × List Byte
  | [], q => ([], q)
  | o :: os, q =>
    let x := queueRun1 cap q o
    let y := queueRunOps cap os x.2
    (x.1 :: y.1, y.2)

/-- A run is over (R252): every input byte has been offered, nothing is left to decode, nothing is left to send. -/
def runOver (s : State) : Bool :=
  !(s.schedule.any fun e => match e with
    | .irq (.rxArrive _) => true
    | .decode sl => sl.flatten.any fun e => match e with
      | .rxArrive _ => true
      | .txDrain | .peripheral => false
    | .irq .txDrain | .irq .peripheral | .watchdogReset | .powerOnReset => false) &&
  (s.rx.occ == 0 || s.ps.halted) && (s.tx.occ == 0 || s.drvTrace.contains .restart)

/-- A run that is over is clean when no frame is in progress (R252). -/
def runClean (s : State) : Bool := runOver s && s.ps.top == .awaitingClassTag

/-- Assumption A2 about the GPIO driver, for claims that name it: with nothing happening to the drivers between two reads
of a pin, the second has no edge flag set and the same value (42_gpio.md R151). No definition uses it. -/
def DriverCleanSecondRead : Prop :=
  ∀ (h : List DrvEvent) (pin : Byte),
    let g := Config.gpioRead h pin
    Config.gpioRead (h ++ [.call (.gpioRead pin g)]) pin = ⟨g.value, false, false⟩

/-- Assumption A3 about the Counter driver: read at once after its configuration, a counter is 0 (46_counter.md R190). -/
def DriverConfigClearsCount : Prop :=
  ∀ (h : List DrvEvent) (pin opt : Byte),
    Config.counterRead (h ++ [.call (.counterConfig pin opt)]) pin = 0

end Sys2Proof.Machine
end

