-- ==== Sys2Proof/Certificates/Slice0/Obligations.lean ====
section
/-! DEFINITION. The statements for the provers. Each docstring names the rule of spec/ it formalises; where a clause rests
on a decision of spec/92_eei_decisions.md or on a log entry, it says so. -/

open Sys2Proof Sys2Proof.Machine

/-! ## Frame encoding and codec (30_encoding.md) -/

/-- Decoding the encoding of a well-formed instruction gives it back, with the bytes after it, for every legal table of
parameters (R82, R83, R100). -/
def Obligations.DecodeOfEncodeIsInstruction : Prop :=
  ∀ (p : Params) (i : Instr) (rest : List Byte), p.ok = true → i.wellFormed = true →
    decode p (encode p i ++ rest) = .ok (i, rest)

/-- What decodes is the encoding of a well-formed instruction, byte for byte. -/
def Obligations.DecodedBytesAreTheEncoding : Prop :=
  ∀ (p : Params) (bs rest : List Byte) (i : Instr), decode p bs = .ok (i, rest) →
    i.wellFormed = true ∧ bs = encode p i ++ rest

/-- The document's three frame examples and two derived vectors decode to the commands they stand for (§8 of the
document in 95_test_vectors.md S1 to S3, V1, I10; the tags of V1 and I10 are decided defaults, D5). -/
def Obligations.ExampleFramesDecode : Prop :=
  decode Params.default [0x01, 0x01, 0x02] = .ok (.miscReset 0x02, []) ∧
  decode Params.default [0x02, 0x03, 0x0D, 0x01, 0x13] = .ok (.gpioWrite 0x0D 0x01 0x13, []) ∧
  decode Params.default [0x03, 0x02, 0x00, 0xFF] = .ok (.analogRead 0x00 0xFF, []) ∧
  decode Params.default [0x05, 0x01, 0x09, 0x05, 0xDC, 0xF0] = .ok (.servoConfig 0x09 0x05DC 0xF0, []) ∧
  decode Params.default [0x04, 0x03, 0x50, 0x10, 0x03, 0xDE, 0xAD, 0xBE, 0xB3] =
    .ok (.i2cWrite 0x50 0x10 0x03 [0xDE, 0xAD, 0xBE] 0xB3, [])

/-- R85: the class tags are Misc=1, GPIO=2, Analog=3, I2C=4, Servo=5, Counter=6, and no other byte is one. -/
def Obligations.ClassTagValues : Prop :=
  ∀ b : Byte, Cls.ofTag b =
    (match b.toNat with
      | 1 => some Cls.misc
      | 2 => some Cls.gpio
      | 3 => some Cls.analog
      | 4 => some Cls.i2c
      | 5 => some Cls.servo
      | 6 => some Cls.counter
      | _ => none)

/-- R88: a 16-bit field is `{hi, lo} = hi * 256 + lo`, its bytes on the wire are the high one and the low one, and the
Servo commands take their pulse width from the second and third argument so. -/
def Obligations.PulseWidthIsBigEndian : Prop :=
  ∀ (a : Args) (k : Byte), ∃ pw : Half,
    pw.toNat = a.a1.toNat * 256 + a.a2.toNat ∧
    assemble .servoConfig a [] k = .servoConfig a.a0 pw k ∧
    assemble .servoSet a [] k = .servoSet a.a0 pw k ∧
    (Instr.servoConfig a.a0 pw k).argBytes = [a.a0, a.a1, a.a2] ∧
    (Instr.servoSet a.a0 pw k).argBytes = [a.a0, a.a1, a.a2]

/-- R101, the requests: how many bytes each command's frame has. -/
def Obligations.RequestLengths : Prop :=
  ∀ (p : Params) (i : Instr), i.wellFormed = true → (encode p i).length =
    (match i with
      | .miscReset _ | .miscGetId _ | .miscGetTemp _ | .analogReadAll _ => 3
      | .gpioRead _ _ | .analogRead _ _ | .i2cConfig _ _ | .counterRead _ _ => 4
      | .gpioConfig _ _ _ | .gpioWrite _ _ _ | .counterConfig _ _ _ => 5
      | .i2cRead _ _ _ _ | .servoConfig _ _ _ | .servoSet _ _ _ => 6
      | .i2cWrite _ _ n _ _ => 6 + n.toNat)

/-- R95, R96 (a): `verify` of any frame with its checksum is true; `verify` of the empty sequence is refused (D28). -/
def Obligations.ChecksumRoundTrip : Prop :=
  verify [] = .error .verifyEmpty ∧
    ∀ B : List Byte, verify (B ++ [checksum B]) = .ok true

/-- R96 (b): adding a non-zero byte to any one byte of a frame makes `verify` false. -/
def Obligations.SingleByteCorruptionDetected : Prop :=
  ∀ (B : List Byte) (j : Nat) (b c : Byte), (B ++ [checksum B])[j]? = some b → c ≠ 0 →
    verify ((B ++ [checksum B]).set j (b + c)) = .ok false

/-- R96 (c): changes that cancel in two different body bytes, a swap of two body bytes and an inserted zero byte are not
detected. -/
def Obligations.CompensatingChangesUndetected : Prop :=
  ∀ (A B C : List Byte) (x y c d : Byte),
    (c + d = 0 → verify (A ++ [x + c] ++ B ++ [y + d] ++ C ++ [checksum (A ++ [x] ++ B ++ [y] ++ C)]) = .ok true) ∧
    verify (A ++ [y] ++ B ++ [x] ++ C ++ [checksum (A ++ [x] ++ B ++ [y] ++ C)]) = .ok true ∧
    verify (A ++ [0] ++ C ++ [checksum (A ++ C)]) = .ok true

/-- R90: bit 0 of the GPIO Read byte is the value, bit 1 the rising and bit 2 the falling edge flag; bits 7:3 are 0 (the
upper bits are decision D22). -/
def Obligations.GpioReadByteBits : Prop :=
  ∀ g : GpioSample,
    (gpioReadByte g).getLsbD 0 = g.value ∧ (gpioReadByte g).getLsbD 1 = g.rise ∧
    (gpioReadByte g).getLsbD 2 = g.fall ∧ ∀ j, 3 ≤ j → (gpioReadByte g).getLsbD j = false

/-! ## Byte transport (20_memory.md) -/

/-- R52: with room `push` writes the byte at the write pointer and nowhere else, advances the write pointer by masking
arithmetic, counts one more and answers true; on a full buffer it answers false and nothing changes. -/
def Obligations.PushStoresOrDrops : Prop :=
  ∀ (cap : Nat) (r : Ring) (b : Byte), powerOfTwo cap = true → r.wf cap = true →
    (r.occ < cap →
      (r.push cap b).2 = true ∧ Memory.read (r.push cap b).1.arr r.wr = b ∧
      (∀ a, a ≠ r.wr → Memory.read (r.push cap b).1.arr a = Memory.read r.arr a) ∧
      (r.push cap b).1.wr = (r.wr + 1) &&& (cap - 1) ∧ (r.push cap b).1.occ = r.occ + 1 ∧
      (r.push cap b).1.rd = r.rd) ∧
    (¬ r.occ < cap → r.push cap b = (r, false))

/-- R53, R54: `pop` gives the byte at the read pointer, advances that pointer, counts one less and leaves the array; of an
empty buffer it gives nothing and nothing changes; `avail` is that a byte is held. -/
def Obligations.PopTakesOldest : Prop :=
  ∀ (cap : Nat) (r : Ring), powerOfTwo cap = true → r.wf cap = true →
    (0 < r.occ → r.avail = true ∧
      r.pop cap = some (Memory.read r.arr r.rd, { r with rd := (r.rd + 1) &&& (cap - 1), occ := r.occ - 1 })) ∧
    (r.occ = 0 → r.avail = false ∧ r.pop cap = none)

/-- R56: from reset a ring buffer behaves exactly as a list of at most `CAP` bytes, for every sequence of operations. -/
def Obligations.RingIsBoundedList : Prop :=
  ∀ (cap : Nat) (ops : List RingOp), powerOfTwo cap = true →
    (Ring.runOps cap ops Ring.reset).1 = (queueRunOps cap ops []).1

/-- R57: from an empty buffer, more pushes than the capacity keep exactly the first `CAP` bytes; those pushes answer true,
the rest false; as many pops give the bytes back in order. -/
def Obligations.RingSaturates : Prop :=
  ∀ (cap : Nat) (r : Ring) (bs : List Byte), powerOfTwo cap = true → r.wf cap = true → r.occ = 0 → cap < bs.length →
    (Ring.runOps cap (bs.map RingOp.push) r).2.occ = cap ∧
    (Ring.runOps cap (bs.map RingOp.push ++ List.replicate cap RingOp.pop) r).1 =
      List.replicate cap (RingAnswer.stored true) ++ List.replicate (bs.length - cap) (RingAnswer.stored false) ++
        (bs.take cap).map (fun b => RingAnswer.popped (some b))

/-! ## Reset (10_state.md R43, 70_reset_and_hazards.md) -/

/-- The state after reset is what R43 says (empty buffers with pointers at 0: decision D4; not halted: D23), at the default
parameters (log 2), with nothing observed. -/
def Obligations.ResetLeavesR43 : Prop :=
  State.reset.AtReset ∧ State.reset.rxBytes = [] ∧ State.reset.txBytes = [] ∧
    State.reset.wireOut = [] ∧ State.reset.drvLog = [] ∧ State.reset.params = Params.default ∧
    State.reset.params.ok = true

/-- The state after reset meets the invariants (a run starts inside them; the fields R43 leaves open are at the values of
log 3 and 4). -/
def Obligations.ResetMeetsInvariants : Prop :=
  State.reset.Inv ∧ State.reset.SumInv

/-- R230, R232: `PowerOnReset` can happen in any state and puts every piece of the block's state at its reset value; the
observation record stays (log 35). -/
def Obligations.PowerOnResetRestarts : Prop :=
  ∀ (s : State) (es : List Event), s.params.ok = true → s.schedule = .powerOnReset :: es →
    ∃ t, step s = .next t ∧ t.AtReset ∧ t.rxBytes = [] ∧ t.txBytes = [] ∧ t.wireOut = s.wireOut ∧
      t.drvLog = s.drvLog ∧ t.params = s.params ∧ t.schedule = es ∧ t.spin = 0 ∧ t.slots = []

/-- R214, R230: `WatchdogReset` restarts the device when it is halted (decision D23); when it is not, the event is not
enabled and is passed over (log 13). From every halted state, whatever is scheduled, a restart comes at last, and until
then the halted parser state stays (weak fairness, decision D24; how long it takes is a free value: log 39). -/
def Obligations.WatchdogResetOnlyWhenHalted : Prop :=
  (∀ (s : State) (es : List Event), s.params.ok = true → s.schedule = .watchdogReset :: es →
    ∃ t, step s = .next t ∧
      (s.ps.halted = true → t.AtReset ∧ t.rxBytes = [] ∧ t.txBytes = [] ∧ t.wireOut = s.wireOut ∧
        t.drvLog = s.drvLog ∧ t.params = s.params ∧ t.schedule = es) ∧
      (s.ps.halted = false → t = { s with schedule := es })) ∧
  (∀ s : State, s.params.ok = true → s.ps.halted = true →
    ∃ (n : Nat) (t : State), core.run n s = .next t ∧ t.AtReset ∧ t.params = s.params ∧
      ∀ j, j < n → ∃ u : State, core.run j s = .next u ∧ u.ps = s.ps)

/-! ## Invariants of every step -/

/-- Every step keeps the invariant: legal parameters, both ring buffers as R31 says with their arrays in canonical form,
the payload buffer in canonical form at addresses 0 to 7, the parser's counters in range and in agreement with its
position, no frame in progress while halted, no spin counted while not halted. -/
def Obligations.EveryStepKeepsInv : Prop :=
  ∀ s t : State, s.Inv → step s = .next t → t.Inv

/-- R130, R219: from every state that meets the invariant a step gives a next state: no input makes the block fault. And no
input hangs it: every run comes to rest, with nothing scheduled, no byte waiting and the device not halted (weak fairness
of Decode, TxDrain and WatchdogReset, decision D24; the order in which they come is the model's: log 6, 39). -/
def Obligations.NoInputFaults : Prop :=
  ∀ s : State, s.Inv → (∃ t, step s = .next t) ∧
    ∃ (n : Nat) (t : State), core.run n s = .next t ∧ t.AtRest ∧ t.Inv

/-- R26, R95: the running checksum is the sum of every byte of the frame so far, in every state a step can reach from one
where it is, while all the frame's data bytes are kept: of an I2C Write past its eighth data byte it says nothing (R25);
there see `DataByteStoredWhileRoom` and `FrameOnTheLineRunsItsInstruction`. -/
def Obligations.EveryStepKeepsRunningChecksum : Prop :=
  ∀ s t : State, s.Inv → s.SumInv → step s = .next t → t.SumInv

/-- R38: no step changes a parameter. -/
def Obligations.NoStepChangesParameters : Prop :=
  ∀ s t : State, step s = .next t → t.params = s.params

/-- R44: the bytes on the wire and the driver calls made only ever grow. -/
def Obligations.RecordsOnlyGrow : Prop :=
  ∀ s t : State, step s = .next t → s.wireOut <+: t.wireOut ∧ s.drvLog <+: t.drvLog

/-- R27, R140: the only step that halts the device is the last byte of a Misc Reset frame, with a good checksum. -/
def Obligations.OnlyMiscResetHalts : Prop :=
  ∀ s t : State, step s = .next t → s.ps.halted = false → t.ps.halted = true →
    s.ps.top = .inSub .misc ∧ s.ps.phase = .checksum ∧ lookup s.params .misc s.ps.op = some .miscReset ∧
      ∃ r, s.rx.pop s.params.rxCap = some (s.ps.csum, r)

/-- R39, R204: a step makes a driver call only at a terminal step whose checksum matches and whose arguments are in
range. -/
def Obligations.DriverCallsOnlyOnGoodFrames : Prop :=
  ∀ s t : State, step s = .next t → t.drvLog ≠ s.drvLog →
    ∃ c m r, s.ps.top = .inSub c ∧ s.ps.phase = .checksum ∧ lookup s.params c s.ps.op = some m ∧
      s.rx.pop s.params.rxCap = some (s.ps.csum, r) ∧ valid s.params (accumulated m s.ps s.ps.csum) = true ∧
      s.ps.halted = false

/-- R28, R66: whatever interrupt events fall inside a Decode (log 7), it leaves the parser state as it would without
them. -/
def Obligations.InterruptsInsideDecodeLeaveParser : Prop :=
  ∀ (s : State) (es : List Event) (sl : List (List Irq)) (t u : State),
    step { s with schedule := .decode sl :: es } = .next t →
    step { s with schedule := .decode [] :: es } = .next u → t.ps = u.ps

/-! ## Interrupt events -/

/-- R207, R32: a receive event touches `rx` alone, a transmit event `tx` and the wire alone, a peripheral event nothing
of the block; none touches the parser state or makes a driver call. -/
def Obligations.InterruptEventsTouchTheirOwn : Prop :=
  ∀ (s : State) (e : Irq) (es : List Event), s.params.ok = true → s.schedule = .irq e :: es →
    ∃ t, step s = .next t ∧ t.ps = s.ps ∧ t.drvLog = s.drvLog ∧ t.params = s.params ∧ t.schedule = es ∧
      t.slots = s.slots ∧ t.spin = s.spin ∧
      (match e with
        | .rxArrive _ => t.tx = s.tx ∧ t.wireOut = s.wireOut ∧ t.drvTrace = s.drvTrace
        | .txDrain => t.rx = s.rx ∧ t.drvTrace = s.drvTrace
        | .peripheral => t.rx = s.rx ∧ t.tx = s.tx ∧ t.wireOut = s.wireOut)

/-- R58: `RxArrive(b)` stores the byte behind those waiting; when `rx` is full the byte is lost and nothing at all
changes. -/
def Obligations.RxArriveStoresOrLoses : Prop :=
  ∀ (s : State) (b : Byte) (es : List Event), s.Inv → s.schedule = .irq (.rxArrive b) :: es →
    ∃ t, step s = .next t ∧
      (s.rx.occ < s.params.rxCap → t.rxBytes = s.rxBytes ++ [b] ∧ t = { s with schedule := es, rx := t.rx }) ∧
      (s.rx.occ = s.params.rxCap → t = { s with schedule := es })

/-- R59: `TxDrain` puts the oldest waiting byte on the wire; with none waiting it sends nothing. -/
def Obligations.TxDrainSendsOldest : Prop :=
  ∀ (s : State) (es : List Event), s.Inv → s.schedule = .irq .txDrain :: es →
    ∃ t, step s = .next t ∧
      (s.txBytes = [] → t = { s with schedule := es }) ∧
      (∀ b q, s.txBytes = b :: q → t.txBytes = q ∧ t.wireOut = s.wireOut ++ [b] ∧
        t = { s with schedule := es, tx := t.tx, wireOut := t.wireOut })

/-- R140, R129, R42: a Decode that comes while halted, or with no byte waiting, pops and decodes nothing (log 13): the
interrupt events inside it happen, in order, and nothing else does, so that the parser state and the driver log stay and no
reply byte is lost. With nothing scheduled (log 6): at rest a step leaves the state; with `rx` empty and not halted it drains `tx`; while halted it restarts the device or
leaves the parser state, `rx` and the reply bytes (log 39). -/
def Obligations.MainLoopIdlesWhenHaltedOrEmpty : Prop :=
  ∀ s : State, s.Inv →
    (∀ sl es, (s.ps.halted = true ∨ s.rx.occ = 0) → s.schedule = .decode sl :: es →
      ∃ t, t = runIrqs sl.flatten { s with schedule := es } ∧ step s = .next t ∧
        t.ps = s.ps ∧ t.drvLog = s.drvLog ∧ t.sent = s.sent ∧ t.schedule = es) ∧
    (s.AtRest → step s = .next s) ∧
    (s.schedule = [] → s.rx.occ = 0 → s.ps.halted = false →
      ∃ t, step s = .next t ∧ t = { s with tx := t.tx, wireOut := t.wireOut } ∧
        ∀ b q, s.txBytes = b :: q → t.txBytes = q ∧ t.wireOut = s.wireOut ++ [b]) ∧
    (s.schedule = [] → s.ps.halted = true →
      ∃ t, step s = .next t ∧ t.drvLog = s.drvLog ∧ t.params = s.params ∧
        ((t.AtReset ∧ t.wireOut = s.wireOut) ∨ (t.ps = s.ps ∧ t.rx = s.rx ∧ t.sent = s.sent)))

/-! ## The decode step (40_dispatcher.md) -/

/-- R111: a class tag opens its sub-machine and starts the checksum. -/
def Obligations.KnownClassTagOpensFrame : Prop :=
  ∀ (s : State) (b : Byte) (r : Ring) (c : Cls), s.pops b r → s.ps.top = .awaitingClassTag → b = c.tag →
    step s = .next { s with
      rx := r, ps := { s.ps with top := .inSub c, phase := .dataTag, idx := 0, cnt := 0, csum := b } }

/-- R112, R97: in `AwaitingClassTag` a byte 0 or 7 to 255 is discarded: only `rx` changes. -/
def Obligations.UnknownClassTagDiscarded : Prop :=
  ∀ (s : State) (b : Byte) (r : Ring), s.pops b r → s.ps.top = .awaitingClassTag → (b.toNat = 0 ∨ 7 ≤ b.toNat) →
    step s = .next { s with rx := r }

/-- R113: a known data tag selects the command, is summed, and the sub-machine waits for arguments or, when the command
has none, for the checksum. -/
def Obligations.KnownDataTagSelectsCommand : Prop :=
  ∀ (s : State) (b : Byte) (r : Ring) (m : Cmd), s.pops b r → s.ps.top = .inSub m.cls → s.ps.phase = .dataTag →
    b = m.tag s.params →
    step s = .next { s with
      rx := r,
      ps := { s.ps with op := b, csum := s.ps.csum + b, phase := if m.nfix = 0 then .checksum else .args } }

/-- R114 (decision D6, log 22): a byte that is no data tag of the class is discarded: only `rx` changes, the checksum
included. -/
def Obligations.UnknownDataTagDiscarded : Prop :=
  ∀ (s : State) (b : Byte) (r : Ring) (c : Cls), s.pops b r → s.ps.top = .inSub c → s.ps.phase = .dataTag →
    (∀ m : Cmd, m.cls = c → m.tag s.params ≠ b) →
    step s = .next { s with rx := r }

/-- R116, R117, R118 (decisions D8, D11): an argument byte is stored at its index whatever its value, counted and summed;
after the last one an I2C Write of length at least 1 takes data bytes, every other command the checksum. -/
def Obligations.ArgumentByteStored : Prop :=
  ∀ (s : State) (b : Byte) (r : Ring) (m : Cmd), s.pops b r → s.ps.top = .inSub m.cls → s.ps.phase = .args →
    s.ps.op = m.tag s.params → s.ps.idx < m.nfix →
    ∃ a ph, step s = .next { s with
        rx := r, ps := { s.ps with args := a, idx := s.ps.idx + 1, csum := s.ps.csum + b, phase := ph } } ∧
      a.toList = s.ps.args.toList.set s.ps.idx b ∧
      (s.ps.idx + 1 < m.nfix → ph = .args) ∧
      (s.ps.idx + 1 = m.nfix → m = .i2cWrite → a.a2 ≠ 0 → ph = .payload) ∧
      (s.ps.idx + 1 = m.nfix → ¬(m = .i2cWrite ∧ a.a2 ≠ 0) → ph = .checksum)

/-- R119 (decision D9): a data byte is stored while fewer than eight are, and counted and summed in any case; the
declared length ends the run. -/
def Obligations.DataByteStoredWhileRoom : Prop :=
  ∀ (s : State) (b : Byte) (r : Ring), s.pops b r → s.ps.top = .inSub .i2c → s.ps.phase = .payload →
    s.ps.op = Cmd.tag s.params .i2cWrite → s.ps.cnt < s.ps.args.a2.toNat → Memory.wf s.ps.buf = true →
    ∃ bf ph, step s = .next { s with
        rx := r, ps := { s.ps with buf := bf, cnt := s.ps.cnt + 1, csum := s.ps.csum + b, phase := ph } } ∧
      (s.ps.cnt < 8 → Memory.read bf s.ps.cnt = b ∧ ∀ a, a ≠ s.ps.cnt → Memory.read bf a = Memory.read s.ps.buf a) ∧
      (8 ≤ s.ps.cnt → bf = s.ps.buf) ∧
      (s.ps.cnt + 1 = s.ps.args.a2.toNat → ph = .checksum) ∧
      (s.ps.cnt + 1 < s.ps.args.a2.toNat → ph = .payload)

/-- R120, R126, R129: the byte after the last argument or data byte makes the step run the accumulated instruction, whether
nothing is scheduled or the environment has scheduled this Decode with interrupt events inside it (R42, R66; log 7). Around
`exec` the step pops that byte, hands the Decode's interrupt events to `exec`, which lets each happen at the point it falls
on, and then lets those left over happen; these touch neither the parser state nor the driver log. None of the events is
lost: after the step `rx` is the popped ring with the bytes that arrived inside the Decode pushed in order (R58, R65 (a)),
each peripheral event is in the drivers' history, and, when `tx` held a byte for each transmit event, those bytes are on the
wire, oldest first (R59). The instruction carries the byte as its checksum (log 14). At every other position (R110) a scheduled Decode decodes its byte as the Decode that
comes with nothing scheduled does, and its interrupt events happen at its end. -/
def Obligations.TerminalStepRunsTheInstruction : Prop :=
  (∀ (s : State) (b : Byte) (u : State) (m : Cmd), s.popsInto b u → s.ps.top = .inSub m.cls → s.ps.phase = .checksum →
    s.ps.op = m.tag s.params →
    ∃ t v, exec (accumulated m s.ps b) u = .next t ∧ v = runIrqs t.slots.flatten { t with slots := [] } ∧
      step s = .next v ∧ v.ps = t.ps ∧ v.drvLog = t.drvLog ∧
      v.rx = u.rx.receive s.params.rxCap (arrivals u.slots.flatten) ∧
      v.drvTrace.count .peripheral = s.drvTrace.count .peripheral + u.slots.flatten.count .peripheral ∧
      (s.tx.wf s.params.txCap = true → u.slots.flatten.count .txDrain ≤ s.txBytes.length →
        v.wireOut = s.wireOut ++ s.txBytes.take (u.slots.flatten.count .txDrain))) ∧
  (∀ (s : State) (b : Byte) (r : Ring) (t : State) (sl : List (List Irq)) (es : List Event), s.pops b r →
    (s.ps.top = .awaitingClassTag ∨ s.ps.phase ≠ .checksum) → step s = .next t →
    step { s with schedule := .decode sl :: es } = .next (runIrqs sl.flatten { t with schedule := es }))

/-- The accumulated instruction is the one whose frame the dispatcher has read: with the frame of a well-formed
instruction at the front of `rx`, one step per byte but the last changes neither `tx`, the wire nor the drivers' history,
leaves the checksum of those bytes in `ps.csum`, and the next step is `exec` of that instruction with its last byte
popped (R110, R127, R95; one step per byte with nothing scheduled: log 6; an over-long I2C Write runs as the instruction
with all its data: log 15). -/
def Obligations.FrameOnTheLineRunsItsInstruction : Prop :=
  ∀ (s : State) (i : Instr) (rest : List Byte), s.Inv → s.schedule = [] → s.ps.top = .awaitingClassTag →
    s.ps.halted = false → i.wellFormed = true → s.rxBytes = encode s.params i ++ rest →
    ∃ (u : State) (r : Ring), core.run ((encode s.params i).length - 1) s = .next u ∧
      u.params = s.params ∧ u.tx = s.tx ∧ u.wireOut = s.wireOut ∧ u.drvTrace = s.drvTrace ∧ u.slots = [] ∧
      u.ps.csum = checksum (i.body s.params) ∧ r.bytes s.params.rxCap = rest ∧
      step u = exec i { u with rx := r }

/-- R127, R120, R84: one frame in, one reply out: after one step per byte the dispatcher awaits a class tag, the bytes
behind the frame still wait, and one reply frame with the echoed tags was offered to `tx`, the newest bytes lost where it
is full; its status is 1 exactly when the last byte is the checksum of those before it and the arguments are in range;
no step before the last offers a byte or calls a driver. -/
def Obligations.OneFrameInOneReplyOut : Prop :=
  ∀ (s : State) (i : Instr) (rest : List Byte), s.Inv → s.schedule = [] → s.ps.top = .awaitingClassTag →
    s.ps.halted = false → i.wellFormed = true → s.rxBytes = encode s.params i ++ rest →
    (∀ j, j < (encode s.params i).length →
      ∃ u : State, core.run j s = .next u ∧ u.tx = s.tx ∧ u.wireOut = s.wireOut ∧ u.drvTrace = s.drvTrace) ∧
    ∃ (t : State) (status : Byte) (data : List Byte), core.run (encode s.params i).length s = .next t ∧
      t.ps.top = .awaitingClassTag ∧ t.rxBytes = rest ∧
      t.txBytes = (s.txBytes ++ frameOf ([i.cmd.cls.tag, i.cmd.tag s.params, status] ++ data)).take s.params.txCap ∧
      (i.lastByte = checksum (i.body s.params) ∧ valid s.params i = true → status = 1) ∧
      (¬(i.lastByte = checksum (i.body s.params) ∧ valid s.params i = true) → status = 0 ∧ data = [])

/-! ## Every command -/

/-- R125: the range checks, command by command (the option masks, the GPIO Write value, the I2C Read bound and the Servo
Set pins are decisions D14, D16, D15, D10 and D18). -/
def Obligations.RangeChecks : Prop :=
  ∀ (p : Params) (i : Instr), valid p i = true ↔
    (match i with
      | .miscReset _ | .miscGetId _ | .miscGetTemp _ | .analogReadAll _ => True
      | .gpioConfig pin opt _ => 2 ≤ pin.toNat ∧ pin.toNat ≤ 13 ∧ ∀ j, opt.getLsbD j = true → p.gpioOptMask.getLsbD j = true
      | .gpioRead pin _ => 2 ≤ pin.toNat ∧ pin.toNat ≤ 13
      | .gpioWrite pin v _ => 2 ≤ pin.toNat ∧ pin.toNat ≤ 13 ∧ v.toNat ≤ 1
      | .analogRead ch _ => ch.toNat ≤ 5
      | .i2cConfig sel _ => sel.toNat ≤ 1
      | .i2cRead _ _ n _ => n.toNat ≤ p.i2cRdCap.toNat
      | .i2cWrite _ _ n _ _ => n.toNat ≤ 8
      | .servoConfig pin _ _ | .servoSet pin _ _ => pin.toNat ∈ [2, 3, 4, 5, 6, 7, 9, 10]
      | .counterConfig pin opt _ => pin.toNat ∈ [2, 3] ∧ ∀ j, opt.getLsbD j = true → p.cntOptMask.getLsbD j = true
      | .counterRead pin _ => pin.toNat ∈ [2, 3])

/-- R121: every terminal step, whether the command succeeded or failed, returns to `AwaitingClassTag`, and of the parser
state changes nothing else but that a Misc Reset with a good checksum halts. -/
def Obligations.TerminalStepAwaitsNextFrame : Prop :=
  ∀ (i : Instr) (s : State), ∃ t, exec i s = .next t ∧
    t.ps = { s.ps with top := .awaitingClassTag, halted := t.ps.halted } ∧
    (t.ps.halted = true ↔ s.ps.halted = true ∨ i = .miscReset s.ps.csum)

/-- R204: on a wrong checksum or an argument out of range, the only state changed is `ps.top` and `tx`: no driver call.
R123, R84: with room for it, `tx` gains the NOK reply with the echoed tags; that it has four bytes and no result data for
every command is the spec's own decision D12 (log 25). -/
def Obligations.NokReplyHasNoSideEffect : Prop :=
  ∀ (i : Instr) (s : State), ¬(i.lastByte = s.ps.csum ∧ valid s.params i = true) → s.slots = [] →
    ∃ t, exec i s = .next t ∧
      t = { s with ps := { s.ps with top := .awaitingClassTag }, tx := t.tx } ∧
      (s.canReply 4 → t.txBytes = s.txBytes ++
        [i.cmd.cls.tag, i.cmd.tag s.params, 0, i.cmd.cls.tag + i.cmd.tag s.params])

/-- R124, R60: a reply that does not fit is cut: the bytes waiting and the reply are kept as far as `tx` reaches, the
newest lost, for every command, OK or NOK (decision D13); and what the command does besides, its driver calls and the
parser state it leaves, is the same whatever `tx` holds. -/
def Obligations.ReplyCutWhenTxFull : Prop :=
  ∀ (i : Instr) (s : State), s.params.ok = true → s.tx.wf s.params.txCap = true → s.slots = [] →
    ∃ (t : State) (status : Byte) (data : List Byte), exec i s = .next t ∧
      t.txBytes = (s.txBytes ++ frameOf ([i.cmd.cls.tag, i.cmd.tag s.params, status] ++ data)).take s.params.txCap ∧
      (i.lastByte = s.ps.csum ∧ valid s.params i = true → status = 1) ∧
      (¬(i.lastByte = s.ps.csum ∧ valid s.params i = true) → status = 0 ∧ data = []) ∧
      ∀ r : Ring, ∃ u, exec i { s with tx := r } = .next u ∧ u.drvTrace = t.drvTrace ∧ u.ps = t.ps

/-- R124, R66: with room for the reply, whatever interrupt events fall inside the Decode, the bytes on the wire and those
waiting, taken together, grow by exactly one whole reply frame, for every command. The points at which interrupt events
fall are one before each driver call made and one before each byte of the reply, so as many lists of events have happened
(log 7). -/
def Obligations.ReplyWholeUnderInterrupts : Prop :=
  ∀ (i : Instr) (s : State), s.params.ok = true → s.tx.wf s.params.txCap = true →
    s.tx.occ + (max 16 (4 + s.params.i2cRdCap.toNat)) ≤ s.params.txCap →
    ∃ (t : State) (status : Byte) (data : List Byte), exec i s = .next t ∧
      t.sent = s.sent ++ frameOf ([i.cmd.cls.tag, i.cmd.tag s.params, status] ++ data) ∧
      t.tx.wf t.params.txCap = true ∧ s.wireOut <+: t.wireOut ∧
      t.slots = s.slots.drop (t.drvLog.length - s.drvLog.length + (4 + data.length))

/-- The frame of every command: the parameters, the schedule, the spin's count, and of the parser state everything but
`top` and `halted` stay (the payload buffer and the accumulator included); the wire's record and the driver log only grow;
`rx` changes by nothing but the bytes that arrive at the points the Decode has passed, pushed in order (R58, R66; log 7);
with no interrupt event inside the Decode `rx` and the wire's record stay as well. -/
def Obligations.CommandLeavesOtherRegisters : Prop :=
  ∀ (i : Instr) (s t : State), exec i s = .next t →
    t.params = s.params ∧ t.schedule = s.schedule ∧ t.spin = s.spin ∧
    t.ps.phase = s.ps.phase ∧ t.ps.op = s.ps.op ∧ t.ps.idx = s.ps.idx ∧ t.ps.args = s.ps.args ∧
    t.ps.cnt = s.ps.cnt ∧ t.ps.csum = s.ps.csum ∧ t.ps.buf = s.ps.buf ∧
    s.wireOut <+: t.wireOut ∧ s.drvLog <+: t.drvLog ∧
    (∃ k, t.slots = s.slots.drop k ∧ t.rx = s.rx.receive s.params.rxCap (arrivals (s.slots.take k).flatten)) ∧
    (s.slots = [] → t.rx = s.rx ∧ t.wireOut = s.wireOut ∧ t.slots = [])

/-- The memory frame of every command, with no interrupt event inside the Decode: no byte of `rx.arr` or of the payload
buffer changes; the bytes stored go to the addresses that follow the write pointer of `tx`, as many as its occupancy
grows by, and every other byte of `tx.arr` stays. -/
def Obligations.CommandLeavesOtherMemory : Prop :=
  ∀ (i : Instr) (s t : State), exec i s = .next t → s.params.ok = true → s.tx.wf s.params.txCap = true → s.slots = [] →
    (∀ a, Memory.read t.rx.arr a = Memory.read s.rx.arr a) ∧
    (∀ a, Memory.read t.ps.buf a = Memory.read s.ps.buf a) ∧
    t.tx.rd = s.tx.rd ∧ s.tx.occ ≤ t.tx.occ ∧
    (∀ a, (∀ j, j < t.tx.occ - s.tx.occ → a ≠ Ring.mask s.params.txCap (s.tx.wr + j)) →
      Memory.read t.tx.arr a = Memory.read s.tx.arr a)

/-! ## The fifteen commands

Each says, for every operand and every checksum byte, that `exec` answers a next state, and what it holds: on a good
checksum and arguments in range the driver calls and the OK reply, otherwise the NOK reply and no call. `sent` is the
wire's record and the bytes waiting, so each holds whatever interrupt events fall inside the Decode. -/

/-- R140: MISC.RESET queues its OK reply and halts; with a bad checksum it does neither. -/
def Obligations.MiscResetRepliesThenHalts : Prop :=
  ∀ (s : State) (k : Byte), s.canReply 4 → ∃ t, exec (.miscReset k) s = .next t ∧ t.drvLog = s.drvLog ∧
    (k = s.ps.csum →
      t.ps = { s.ps with top := .awaitingClassTag, halted := true } ∧ t.sent = s.sent ++ [1, 1, 1, 3]) ∧
    (k ≠ s.ps.csum →
      t.ps = { s.ps with top := .awaitingClassTag } ∧ t.sent = s.sent ++ [1, 1, 0, 2])

/-- R141: MISC.GETID replies with `BOARD_ID`, high byte first, and calls no driver. -/
def Obligations.MiscGetIdRepliesBoardId : Prop :=
  ∀ (s : State) (k : Byte), s.canReply 6 → ∃ t, exec (.miscGetId k) s = .next t ∧ t.drvLog = s.drvLog ∧
    t.ps = { s.ps with top := .awaitingClassTag } ∧
    (k = s.ps.csum → t.sent = s.sent ++
      frameOf [1, s.params.dt.miscGetId, 1, hi8 s.params.boardId, lo8 s.params.boardId]) ∧
    (k ≠ s.ps.csum → t.sent = s.sent ++ [1, s.params.dt.miscGetId, 0, 1 + s.params.dt.miscGetId])

/-- R142: MISC.GETTEMP samples the sensor once and replies with the raw reading, any 16-bit value, high byte first. -/
def Obligations.MiscGetTempRepliesReading : Prop :=
  ∀ (s : State) (k : Byte), s.canReply 6 → ∃ t, exec (.miscGetTemp k) s = .next t ∧
    t.ps = { s.ps with top := .awaitingClassTag } ∧
    (k = s.ps.csum → ∃ w : Half, t.drvLog = s.drvLog ++ [.tempSample w] ∧
      t.sent = s.sent ++ frameOf [1, s.params.dt.miscGetTemp, 1, hi8 w, lo8 w]) ∧
    (k ≠ s.ps.csum → t.drvLog = s.drvLog ∧
      t.sent = s.sent ++ [1, s.params.dt.miscGetTemp, 0, 1 + s.params.dt.miscGetTemp])

/-- R150: GPIO.CONFIG hands pin and options byte to the driver; pin 2 to 13 and no option bit outside the mask (D14). -/
def Obligations.GpioConfigConfiguresPin : Prop :=
  ∀ (s : State) (pin opt k : Byte), s.canReply 4 → ∃ t, exec (.gpioConfig pin opt k) s = .next t ∧
    t.ps = { s.ps with top := .awaitingClassTag } ∧
    (if k = s.ps.csum ∧ 2 ≤ pin.toNat ∧ pin.toNat ≤ 13 ∧ opt &&& ~~~s.params.gpioOptMask = 0 then
      t.drvLog = s.drvLog ++ [.gpioConfig pin opt] ∧
        t.sent = s.sent ++ [2, s.params.dt.gpioConfig, 1, 3 + s.params.dt.gpioConfig]
    else t.drvLog = s.drvLog ∧ t.sent = s.sent ++ [2, s.params.dt.gpioConfig, 0, 2 + s.params.dt.gpioConfig])

/-- R151: GPIO.READ samples the pin once and replies with the three bits in one byte. -/
def Obligations.GpioReadRepliesSample : Prop :=
  ∀ (s : State) (pin k : Byte), s.canReply 5 → ∃ t, exec (.gpioRead pin k) s = .next t ∧
    t.ps = { s.ps with top := .awaitingClassTag } ∧
    (if k = s.ps.csum ∧ 2 ≤ pin.toNat ∧ pin.toNat ≤ 13 then
      ∃ g : GpioSample, t.drvLog = s.drvLog ++ [.gpioRead pin g] ∧
        t.sent = s.sent ++ frameOf [2, s.params.dt.gpioRead, 1, gpioReadByte g]
    else t.drvLog = s.drvLog ∧ t.sent = s.sent ++ [2, s.params.dt.gpioRead, 0, 2 + s.params.dt.gpioRead])

/-- R152: GPIO.WRITE drives the pin with 0 or 1 (any other value is NOK: D15). -/
def Obligations.GpioWriteDrivesPin : Prop :=
  ∀ (s : State) (pin v k : Byte), s.canReply 4 → ∃ t, exec (.gpioWrite pin v k) s = .next t ∧
    t.ps = { s.ps with top := .awaitingClassTag } ∧
    (if k = s.ps.csum ∧ 2 ≤ pin.toNat ∧ pin.toNat ≤ 13 ∧ (v = 0 ∨ v = 1) then
      t.drvLog = s.drvLog ++ [.gpioWrite pin v] ∧ t.sent = s.sent ++ [2, 3, 1, 6]
    else t.drvLog = s.drvLog ∧ t.sent = s.sent ++ [2, 3, 0, 5])

/-- R160: ANALOG.READ samples one channel 0 to 5 and replies with the reading, any 16-bit value, high byte first. -/
def Obligations.AnalogReadRepliesReading : Prop :=
  ∀ (s : State) (ch k : Byte), s.canReply 6 → ∃ t, exec (.analogRead ch k) s = .next t ∧
    t.ps = { s.ps with top := .awaitingClassTag } ∧
    (if k = s.ps.csum ∧ ch.toNat ≤ 5 then
      ∃ w : Half, t.drvLog = s.drvLog ++ [.adcRead ch w] ∧ t.sent = s.sent ++ frameOf [3, 2, 1, hi8 w, lo8 w]
    else t.drvLog = s.drvLog ∧ t.sent = s.sent ++ [3, 2, 0, 5])

/-- R161: ANALOG.READALL samples the six channels, 0 to 5 (ascending: D21), and replies with them in that order. -/
def Obligations.AnalogReadAllRepliesSixReadings : Prop :=
  ∀ (s : State) (k : Byte), s.canReply 16 → ∃ t, exec (.analogReadAll k) s = .next t ∧
    t.ps = { s.ps with top := .awaitingClassTag } ∧
    (k = s.ps.csum → ∃ w0 w1 w2 w3 w4 w5 : Half,
      t.drvLog = s.drvLog ++ [.adcRead 0 w0, .adcRead 1 w1, .adcRead 2 w2, .adcRead 3 w3, .adcRead 4 w4, .adcRead 5 w5] ∧
      t.sent = s.sent ++ frameOf [3, s.params.dt.analogReadAll, 1, hi8 w0, lo8 w0, hi8 w1, lo8 w1, hi8 w2, lo8 w2,
        hi8 w3, lo8 w3, hi8 w4, lo8 w4, hi8 w5, lo8 w5]) ∧
    (k ≠ s.ps.csum → t.drvLog = s.drvLog ∧
      t.sent = s.sent ++ [3, s.params.dt.analogReadAll, 0, 3 + s.params.dt.analogReadAll])

/-- R170: I2C.CONFIG selects the bus clock with 0 or 1. -/
def Obligations.I2cConfigSelectsClock : Prop :=
  ∀ (s : State) (sel k : Byte), s.canReply 4 → ∃ t, exec (.i2cConfig sel k) s = .next t ∧
    t.ps = { s.ps with top := .awaitingClassTag } ∧
    (if k = s.ps.csum ∧ (sel = 0 ∨ sel = 1) then
      t.drvLog = s.drvLog ++ [.i2cConfig sel] ∧
        t.sent = s.sent ++ [4, s.params.dt.i2cConfig, 1, 5 + s.params.dt.i2cConfig]
    else t.drvLog = s.drvLog ∧ t.sent = s.sent ++ [4, s.params.dt.i2cConfig, 0, 4 + s.params.dt.i2cConfig])

/-- R171: I2C.READ reads `n` bytes, any bytes, and replies with them in bus order; `n` at most `I2C_RD_CAP` (D10), 0
valid (D11), address and offset unchecked (D17). -/
def Obligations.I2cReadRepliesBytes : Prop :=
  ∀ (s : State) (addr off n k : Byte), s.canReply (4 + min n.toNat s.params.i2cRdCap.toNat) →
    ∃ t, exec (.i2cRead addr off n k) s = .next t ∧
    t.ps = { s.ps with top := .awaitingClassTag } ∧
    (if k = s.ps.csum ∧ n.toNat ≤ s.params.i2cRdCap.toNat then
      ∃ bs : List Byte, bs.length = n.toNat ∧ t.drvLog = s.drvLog ++ [.i2cRead addr off n bs] ∧
        t.sent = s.sent ++ frameOf ([4, s.params.dt.i2cRead, 1] ++ bs)
    else t.drvLog = s.drvLog ∧ t.sent = s.sent ++ [4, s.params.dt.i2cRead, 0, 4 + s.params.dt.i2cRead])

/-- R172: I2C.WRITE hands its `n` data bytes to the driver in arrival order; more than eight are refused whatever the
checksum, without a bus transaction. -/
def Obligations.I2cWriteWritesBytes : Prop :=
  ∀ (s : State) (addr off n : Byte) (data : List Byte) (k : Byte), s.canReply 4 → data.length = n.toNat →
    ∃ t, exec (.i2cWrite addr off n data k) s = .next t ∧ t.ps = { s.ps with top := .awaitingClassTag } ∧
    (if k = s.ps.csum ∧ n.toNat ≤ 8 then
      t.drvLog = s.drvLog ++ [.i2cWrite addr off data] ∧
        t.sent = s.sent ++ [4, s.params.dt.i2cWrite, 1, 5 + s.params.dt.i2cWrite]
    else t.drvLog = s.drvLog ∧ t.sent = s.sent ++ [4, s.params.dt.i2cWrite, 0, 4 + s.params.dt.i2cWrite])

/-- R180, R181: SERVO.CONFIG and SERVO.SET hand the pin and the unclamped pulse width to their driver primitive; pins 2 to
7, 9 and 10 (for Set: D18), no pulse width refused. -/
def Obligations.ServoCommandsSetPulseWidth : Prop :=
  ∀ (s : State) (pin : Byte) (pw : Half) (k : Byte), s.canReply 4 →
    (∃ t, exec (.servoConfig pin pw k) s = .next t ∧ t.ps = { s.ps with top := .awaitingClassTag } ∧
      (if k = s.ps.csum ∧ pin.toNat ∈ [2, 3, 4, 5, 6, 7, 9, 10] then
        t.drvLog = s.drvLog ++ [.servoConfig pin pw] ∧
          t.sent = s.sent ++ [5, s.params.dt.servoConfig, 1, 6 + s.params.dt.servoConfig]
      else t.drvLog = s.drvLog ∧ t.sent = s.sent ++ [5, s.params.dt.servoConfig, 0, 5 + s.params.dt.servoConfig])) ∧
    (∃ t, exec (.servoSet pin pw k) s = .next t ∧ t.ps = { s.ps with top := .awaitingClassTag } ∧
      (if k = s.ps.csum ∧ pin.toNat ∈ [2, 3, 4, 5, 6, 7, 9, 10] then
        t.drvLog = s.drvLog ++ [.servoSet pin pw] ∧
          t.sent = s.sent ++ [5, s.params.dt.servoSet, 1, 6 + s.params.dt.servoSet]
      else t.drvLog = s.drvLog ∧ t.sent = s.sent ++ [5, s.params.dt.servoSet, 0, 5 + s.params.dt.servoSet]))

/-- R190: COUNTER.CONFIG arms the pin's edges and resets its count through the driver; pin 2 or 3, no option bit outside
the mask, 0 accepted (D16). -/
def Obligations.CounterConfigArmsPin : Prop :=
  ∀ (s : State) (pin opt k : Byte), s.canReply 4 → ∃ t, exec (.counterConfig pin opt k) s = .next t ∧
    t.ps = { s.ps with top := .awaitingClassTag } ∧
    (if k = s.ps.csum ∧ pin.toNat ∈ [2, 3] ∧ opt &&& ~~~s.params.cntOptMask = 0 then
      t.drvLog = s.drvLog ++ [.counterConfig pin opt] ∧
        t.sent = s.sent ++ [6, s.params.dt.counterConfig, 1, 7 + s.params.dt.counterConfig]
    else t.drvLog = s.drvLog ∧
      t.sent = s.sent ++ [6, s.params.dt.counterConfig, 0, 6 + s.params.dt.counterConfig])

/-- R191: COUNTER.READ reads the pin's count once, any byte, and replies with it. -/
def Obligations.CounterReadRepliesCount : Prop :=
  ∀ (s : State) (pin k : Byte), s.canReply 5 → ∃ t, exec (.counterRead pin k) s = .next t ∧
    t.ps = { s.ps with top := .awaitingClassTag } ∧
    (if k = s.ps.csum ∧ pin.toNat ∈ [2, 3] then
      ∃ n : Byte, t.drvLog = s.drvLog ++ [.counterRead pin n] ∧
        t.sent = s.sent ++ frameOf [6, s.params.dt.counterRead, 1, n]
    else t.drvLog = s.drvLog ∧ t.sent = s.sent ++ [6, s.params.dt.counterRead, 0, 6 + s.params.dt.counterRead])
end

