-- ==== Sys2Proof/Laws/Codec.lean ====
section
/-! SUPPORT. The laws of the tables and of the frame codec: class tags, data tags, argument counts, the checksum of a
concatenation, and that an instruction is made of its own frame's parts. -/

namespace Sys2Proof

@[simp] theorem checksum_nil : checksum [] = 0#8 := rfl

@[simp] theorem checksum_cons (b : Byte) (s : List Byte) : checksum (b :: s) = b + checksum s := rfl

@[simp] theorem checksum_append (s t : List Byte) : checksum (s ++ t) = checksum s + checksum t := by
  induction s with
  | nil => simp
  | cons b s ih => simp [ih, BitVec.add_assoc]

@[simp] theorem Cls.ofTag_tag (c : Cls) : Cls.ofTag c.tag = some c := by
  cases c <;> decide

/-- A byte that names a class is that class's tag (30_encoding.md R85). -/
theorem Cls.ofTag_some {b : Byte} {c : Cls} (h : Cls.ofTag b = some c) : b = c.tag := by
  unfold Cls.ofTag at h
  repeat' split at h
  all_goals cases h
  all_goals assumption

/-- The command a data tag selects is of the class and has that tag. -/
theorem lookup_some {p : Params} {c : Cls} {t : Byte} {m : Cmd} (h : lookup p c t = some m) :
    m.cls = c ∧ m.tag p = t := by
  have ht : m.tag p = t := by simpa using List.find?_some h
  have hm : m ∈ c.commands := List.mem_of_find?_eq_some h
  refine ⟨?_, ht⟩
  cases c <;> simp [Cls.commands] at hm <;> rcases hm with rfl | rfl | rfl <;> rfl

/-- The constraints on the parameters, taken apart. -/
theorem Params.ok_iff {p : Params} : p.ok = true ↔
    powerOfTwo p.rxCap = true ∧ powerOfTwo p.txCap = true ∧ p.tagsDistinct = true ∧ p.tagsFixed = true := by
  simp [Params.ok, and_assoc]

/-- With distinct tags in each class, a command's own tag selects it (30_encoding.md R87). -/
theorem lookup_tag {p : Params} (h : p.ok = true) (m : Cmd) : lookup p m.cls (m.tag p) = some m := by
  have hd := (Params.ok_iff.1 h).2.2.1
  simp [Params.tagsDistinct, Cls.commands] at hd
  cases m <;> simp [lookup, Cmd.cls, Cls.commands, List.find?_cons] <;> grind

@[simp] theorem Instr.argBytes_length (i : Instr) : i.argBytes.length = i.cmd.nfix := by
  cases i <;> rfl

/-- A 16-bit field is made of its two bytes (30_encoding.md R88). -/
@[simp] theorem half_hi8_lo8 (w : Half) : half (hi8 w) (lo8 w) = w := by
  apply BitVec.eq_of_toNat_eq
  have := w.isLt
  simp only [half, hi8, lo8, BitVec.toNat_ofNat]
  omega

@[simp] theorem hi8_half (a b : Byte) : hi8 (half a b) = a := by
  apply BitVec.eq_of_toNat_eq
  have := a.isLt
  have := b.isLt
  simp only [half, hi8, BitVec.toNat_ofNat]
  omega

@[simp] theorem lo8_half (a b : Byte) : lo8 (half a b) = b := by
  apply BitVec.eq_of_toNat_eq
  have := a.isLt
  have := b.isLt
  simp only [half, lo8, BitVec.toNat_ofNat]
  omega

/-- An instruction is made of its own frame's parts. -/
theorem assemble_self (i : Instr) :
    assemble i.cmd (Args.ofList i.argBytes) i.dataBytes i.lastByte = i := by
  cases i <;> simp [assemble, Instr.cmd, Instr.argBytes, Instr.dataBytes, Instr.lastByte, Args.ofList]

/-- What `assemble` makes is an instruction of that command. -/
@[simp] theorem assemble_cmd (m : Cmd) (a : Args) (d : List Byte) (k : Byte) : (assemble m a d k).cmd = m := by
  cases m <;> rfl

@[simp] theorem assemble_lastByte (m : Cmd) (a : Args) (d : List Byte) (k : Byte) :
    (assemble m a d k).lastByte = k := by
  cases m <;> rfl

/-- How many data bytes a well-formed instruction's frame has: what its own arguments declare. -/
theorem Instr.dataBytes_length {i : Instr} (h : i.wellFormed = true) :
    i.dataBytes.length = i.cmd.dataLength (Args.ofList i.argBytes) := by
  cases i <;> simp_all [Instr.wellFormed, Instr.dataBytes, Cmd.dataLength, Cmd.hasData, Instr.cmd, Instr.argBytes, Args.ofList]

end Sys2Proof
end

