-- ==== Sys2Proof/Laws/Ring.lean ====
section
/-! SUPPORT. What `push` and `pop` can do, said once: each keeps the ring buffer's invariants, and each acts on the bytes
held as on a list (20_memory.md R52, R53, R56; 10_state.md R31). -/

namespace Sys2Proof.Machine

theorem powerOfTwo_pos {n : Nat} (h : powerOfTwo n = true) : 0 < n := by
  have h' : 2 ^ n.log2 = n := by simpa [powerOfTwo] using h
  have := Nat.two_pow_pos n.log2
  omega

/-- With a power-of-two capacity the masking arithmetic is the remainder (20_memory.md R51). -/
theorem Ring.mask_eq_mod {cap : Nat} (h : powerOfTwo cap = true) (p : Nat) : Ring.mask cap p = p % cap := by
  have h' : 2 ^ cap.log2 = cap := by simpa [powerOfTwo] using h
  unfold Ring.mask
  rw [← h', Nat.and_two_pow_sub_one_eq_mod]

/-- The parts of the ring buffer's well-formedness. -/
theorem Ring.wf_iff {cap : Nat} {r : Ring} : r.wf cap = true ↔
    r.occ ≤ cap ∧ r.rd < cap ∧ r.wr = (r.rd + r.occ) % cap ∧ Memory.wf r.arr = true ∧
      Memory.within cap r.arr = true := by
  simp [Ring.wf, and_assoc]

@[simp] theorem Ring.bytes_length (cap : Nat) (r : Ring) : (r.bytes cap).length = r.occ := by
  simp [Ring.bytes]

/-- A full buffer does not change (R52). -/
theorem Ring.push_full {cap : Nat} {r : Ring} (b : Byte) (h : cap ≤ r.occ) : r.push cap b = (r, false) := by
  rw [Ring.push, if_neg (by omega)]

/-- Distinct positions of a buffer with room lie at distinct addresses. -/
theorem Ring.position_ne {cap rd i occ : Nat} (hi : i < occ) (hocc : occ < cap) :
    (rd + i) % cap ≠ (rd + occ) % cap := by
  intro h
  have hmod : (rd + i) ≡ (rd + occ) [MOD cap] := h
  have := (Nat.ModEq.add_left_cancel' rd hmod)
  have h2 : i % cap = occ % cap := this
  rw [Nat.mod_eq_of_lt (by omega), Nat.mod_eq_of_lt hocc] at h2
  omega

/-- A push with room appends the byte (R52, R56). -/
theorem Ring.push_bytes {cap : Nat} {r : Ring} (b : Byte) (hp : powerOfTwo cap = true) (hw : r.wf cap = true)
    (h : r.occ < cap) : (r.push cap b).1.bytes cap = r.bytes cap ++ [b] := by
  obtain ⟨-, hrd, hwr, hm, -⟩ := Ring.wf_iff.1 hw
  have hmask : Ring.mask cap r.wr = (r.rd + r.occ) % cap := by
    rw [Ring.mask_eq_mod hp, hwr, Nat.mod_mod]
  rw [Ring.push, if_pos h, Ring.bytes, Ring.bytes, List.range_succ, List.map_append]
  simp only [List.map_cons, List.map_nil, hmask, Memory.read_write_same _ _ hm]
  congr 1
  apply List.map_congr_left
  intro i hi
  exact Memory.read_write_other _ _ (Ring.position_ne (List.mem_range.1 hi) h)

/-- A push keeps the invariants of 10_state.md R31, with room and without. -/
theorem Ring.push_wf {cap : Nat} {r : Ring} (b : Byte) (hp : powerOfTwo cap = true) (hw : r.wf cap = true) :
    (r.push cap b).1.wf cap = true := by
  by_cases h : r.occ < cap
  · obtain ⟨-, hrd, hwr, hm, hin⟩ := Ring.wf_iff.1 hw
    have hpos := powerOfTwo_pos hp
    rw [Ring.push, if_pos h]
    refine Ring.wf_iff.2 ⟨h, hrd, ?_, Memory.write_wf _ _ hm, Memory.write_within _ hin ?_⟩
    · show Ring.mask cap (r.wr + 1) = (r.rd + (r.occ + 1)) % cap
      rw [Ring.mask_eq_mod hp, hwr, Nat.mod_add_mod, Nat.add_assoc]
    · rw [Ring.mask_eq_mod hp]
      exact Nat.mod_lt _ hpos
  · rw [Ring.push_full b (by omega)]
    exact hw

/-- A push acts on the bytes held as on a list of at most `cap` bytes: the newest is dropped when it is full. -/
theorem Ring.push_bytes_take {cap : Nat} {r : Ring} (b : Byte) (hp : powerOfTwo cap = true) (hw : r.wf cap = true) :
    (r.push cap b).1.bytes cap = (r.bytes cap ++ [b]).take cap := by
  have hocc := (Ring.wf_iff.1 hw).1
  by_cases h : r.occ < cap
  · rw [Ring.push_bytes b hp hw h, List.take_of_length_le (by simp; omega)]
  · rw [Ring.push_full b (by omega), List.take_append_of_le_length (by simp; omega), List.take_of_length_le (by simp; omega)]

@[simp] theorem Ring.push_rd (cap : Nat) (r : Ring) (b : Byte) : (r.push cap b).1.rd = r.rd := by
  unfold Ring.push
  split <;> rfl

/-- How many bytes a buffer holds after a push. -/
theorem Ring.push_occ (cap : Nat) (r : Ring) (b : Byte) :
    (r.push cap b).1.occ = if r.occ < cap then r.occ + 1 else r.occ := by
  unfold Ring.push
  split <;> simp_all

/-- `pop` of an empty buffer gives nothing (R53). -/
theorem Ring.pop_empty {cap : Nat} {r : Ring} (h : r.occ = 0) : r.pop cap = none := by
  simp [Ring.pop, h]

/-- Everything `pop` can do (R53): when it gives a byte, that byte is the oldest held, the rest stays in order, and the
invariants are kept. -/
theorem Ring.pop_some {cap : Nat} {r r' : Ring} {b : Byte} (hp : powerOfTwo cap = true) (hw : r.wf cap = true)
    (h : r.pop cap = some (b, r')) :
    r.bytes cap = b :: r'.bytes cap ∧ r'.wf cap = true ∧ r.occ = r'.occ + 1 := by
  obtain ⟨hocc, hrd, hwr, hm, hin⟩ := Ring.wf_iff.1 hw
  have hpos := powerOfTwo_pos hp
  rw [Ring.pop] at h
  split at h
  · rename_i hne
    simp only [Option.some.injEq, Prod.mk.injEq] at h
    obtain ⟨rfl, rfl⟩ := h
    have hmask : Ring.mask cap (r.rd + 1) = (r.rd + 1) % cap := Ring.mask_eq_mod hp _
    refine ⟨?_, Ring.wf_iff.2 ⟨by simp; omega, ?_, ?_, hm, hin⟩, by simp; omega⟩
    · obtain ⟨n, hn⟩ : ∃ n, r.occ = n + 1 := ⟨r.occ - 1, by omega⟩
      simp only [Ring.bytes, hn, Nat.add_sub_cancel, List.range_succ_eq_map, List.map_cons, List.map_map,
        Ring.mask_eq_mod hp, Nat.add_zero, List.cons.injEq]
      refine ⟨trivial, List.map_congr_left fun i _ => ?_⟩
      simp only [Function.comp, Nat.succ_eq_add_one, Nat.mod_add_mod]
      congr 2
      omega
    · simp only [hmask]
      exact Nat.mod_lt _ hpos
    · simp only [hmask, Nat.mod_add_mod, hwr]
      congr 1
      omega
  · simp at h

/-- A non-empty buffer gives a byte. -/
theorem Ring.pop_isSome {cap : Nat} {r : Ring} (h : 0 < r.occ) : ∃ b r', r.pop cap = some (b, r') := by
  simp [Ring.pop, h]

/-- A fresh buffer is well formed and holds nothing. -/
theorem Ring.reset_wf {cap : Nat} (h : 0 < cap) : Ring.reset.wf cap = true := by
  simp [Ring.wf_iff, Ring.reset, h, Memory.wf, Memory.wfFrom, Memory.within]

@[simp] theorem Ring.reset_bytes (cap : Nat) : Ring.reset.bytes cap = [] := by
  simp [Ring.bytes, Ring.reset]

end Sys2Proof.Machine
end

