-- ==== Sys2Proof/Laws/State.lean ====
section
/-! SUPPORT. One lemma per field per named update of the state, each true by rfl, so that no proof unfolds a record
update; and what the derived views (drv_log, the bytes waiting) keep. -/

namespace Sys2Proof.Machine

variable (s : State)

@[simp] theorem State.withPs_params (x : Parser) : (s.withPs x).params = s.params := rfl
@[simp] theorem State.withPs_ps (x : Parser) : (s.withPs x).ps = x := rfl
@[simp] theorem State.withPs_rx (x : Parser) : (s.withPs x).rx = s.rx := rfl
@[simp] theorem State.withPs_tx (x : Parser) : (s.withPs x).tx = s.tx := rfl
@[simp] theorem State.withPs_wireOut (x : Parser) : (s.withPs x).wireOut = s.wireOut := rfl
@[simp] theorem State.withPs_drvTrace (x : Parser) : (s.withPs x).drvTrace = s.drvTrace := rfl
@[simp] theorem State.withPs_schedule (x : Parser) : (s.withPs x).schedule = s.schedule := rfl
@[simp] theorem State.withPs_slots (x : Parser) : (s.withPs x).slots = s.slots := rfl
@[simp] theorem State.withPs_spin (x : Parser) : (s.withPs x).spin = s.spin := rfl

@[simp] theorem State.withRx_params (x : Ring) : (s.withRx x).params = s.params := rfl
@[simp] theorem State.withRx_ps (x : Ring) : (s.withRx x).ps = s.ps := rfl
@[simp] theorem State.withRx_rx (x : Ring) : (s.withRx x).rx = x := rfl
@[simp] theorem State.withRx_tx (x : Ring) : (s.withRx x).tx = s.tx := rfl
@[simp] theorem State.withRx_wireOut (x : Ring) : (s.withRx x).wireOut = s.wireOut := rfl
@[simp] theorem State.withRx_drvTrace (x : Ring) : (s.withRx x).drvTrace = s.drvTrace := rfl
@[simp] theorem State.withRx_schedule (x : Ring) : (s.withRx x).schedule = s.schedule := rfl
@[simp] theorem State.withRx_slots (x : Ring) : (s.withRx x).slots = s.slots := rfl
@[simp] theorem State.withRx_spin (x : Ring) : (s.withRx x).spin = s.spin := rfl

@[simp] theorem State.withTx_params (x : Ring) : (s.withTx x).params = s.params := rfl
@[simp] theorem State.withTx_ps (x : Ring) : (s.withTx x).ps = s.ps := rfl
@[simp] theorem State.withTx_rx (x : Ring) : (s.withTx x).rx = s.rx := rfl
@[simp] theorem State.withTx_tx (x : Ring) : (s.withTx x).tx = x := rfl
@[simp] theorem State.withTx_wireOut (x : Ring) : (s.withTx x).wireOut = s.wireOut := rfl
@[simp] theorem State.withTx_drvTrace (x : Ring) : (s.withTx x).drvTrace = s.drvTrace := rfl
@[simp] theorem State.withTx_schedule (x : Ring) : (s.withTx x).schedule = s.schedule := rfl
@[simp] theorem State.withTx_slots (x : Ring) : (s.withTx x).slots = s.slots := rfl
@[simp] theorem State.withTx_spin (x : Ring) : (s.withTx x).spin = s.spin := rfl

@[simp] theorem State.wire_params (b : Byte) : (s.wire b).params = s.params := rfl
@[simp] theorem State.wire_ps (b : Byte) : (s.wire b).ps = s.ps := rfl
@[simp] theorem State.wire_rx (b : Byte) : (s.wire b).rx = s.rx := rfl
@[simp] theorem State.wire_tx (b : Byte) : (s.wire b).tx = s.tx := rfl
@[simp] theorem State.wire_wireOut (b : Byte) : (s.wire b).wireOut = s.wireOut ++ [b] := rfl
@[simp] theorem State.wire_drvTrace (b : Byte) : (s.wire b).drvTrace = s.drvTrace := rfl
@[simp] theorem State.wire_schedule (b : Byte) : (s.wire b).schedule = s.schedule := rfl
@[simp] theorem State.wire_slots (b : Byte) : (s.wire b).slots = s.slots := rfl
@[simp] theorem State.wire_spin (b : Byte) : (s.wire b).spin = s.spin := rfl

@[simp] theorem State.driver_params (e : DrvEvent) : (s.driver e).params = s.params := rfl
@[simp] theorem State.driver_ps (e : DrvEvent) : (s.driver e).ps = s.ps := rfl
@[simp] theorem State.driver_rx (e : DrvEvent) : (s.driver e).rx = s.rx := rfl
@[simp] theorem State.driver_tx (e : DrvEvent) : (s.driver e).tx = s.tx := rfl
@[simp] theorem State.driver_wireOut (e : DrvEvent) : (s.driver e).wireOut = s.wireOut := rfl
@[simp] theorem State.driver_drvTrace (e : DrvEvent) : (s.driver e).drvTrace = s.drvTrace ++ [e] := rfl
@[simp] theorem State.driver_schedule (e : DrvEvent) : (s.driver e).schedule = s.schedule := rfl
@[simp] theorem State.driver_slots (e : DrvEvent) : (s.driver e).slots = s.slots := rfl
@[simp] theorem State.driver_spin (e : DrvEvent) : (s.driver e).spin = s.spin := rfl

@[simp] theorem State.withSchedule_params (x : List Event) : (s.withSchedule x).params = s.params := rfl
@[simp] theorem State.withSchedule_ps (x : List Event) : (s.withSchedule x).ps = s.ps := rfl
@[simp] theorem State.withSchedule_rx (x : List Event) : (s.withSchedule x).rx = s.rx := rfl
@[simp] theorem State.withSchedule_tx (x : List Event) : (s.withSchedule x).tx = s.tx := rfl
@[simp] theorem State.withSchedule_wireOut (x : List Event) : (s.withSchedule x).wireOut = s.wireOut := rfl
@[simp] theorem State.withSchedule_drvTrace (x : List Event) : (s.withSchedule x).drvTrace = s.drvTrace := rfl
@[simp] theorem State.withSchedule_schedule (x : List Event) : (s.withSchedule x).schedule = x := rfl
@[simp] theorem State.withSchedule_slots (x : List Event) : (s.withSchedule x).slots = s.slots := rfl
@[simp] theorem State.withSchedule_spin (x : List Event) : (s.withSchedule x).spin = s.spin := rfl

@[simp] theorem State.withSlots_params (x : List (List Irq)) : (s.withSlots x).params = s.params := rfl
@[simp] theorem State.withSlots_ps (x : List (List Irq)) : (s.withSlots x).ps = s.ps := rfl
@[simp] theorem State.withSlots_rx (x : List (List Irq)) : (s.withSlots x).rx = s.rx := rfl
@[simp] theorem State.withSlots_tx (x : List (List Irq)) : (s.withSlots x).tx = s.tx := rfl
@[simp] theorem State.withSlots_wireOut (x : List (List Irq)) : (s.withSlots x).wireOut = s.wireOut := rfl
@[simp] theorem State.withSlots_drvTrace (x : List (List Irq)) : (s.withSlots x).drvTrace = s.drvTrace := rfl
@[simp] theorem State.withSlots_schedule (x : List (List Irq)) : (s.withSlots x).schedule = s.schedule := rfl
@[simp] theorem State.withSlots_slots (x : List (List Irq)) : (s.withSlots x).slots = x := rfl
@[simp] theorem State.withSlots_spin (x : List (List Irq)) : (s.withSlots x).spin = s.spin := rfl

@[simp] theorem State.withSpin_params (n : Nat) : (s.withSpin n).params = s.params := rfl
@[simp] theorem State.withSpin_ps (n : Nat) : (s.withSpin n).ps = s.ps := rfl
@[simp] theorem State.withSpin_rx (n : Nat) : (s.withSpin n).rx = s.rx := rfl
@[simp] theorem State.withSpin_tx (n : Nat) : (s.withSpin n).tx = s.tx := rfl
@[simp] theorem State.withSpin_wireOut (n : Nat) : (s.withSpin n).wireOut = s.wireOut := rfl
@[simp] theorem State.withSpin_drvTrace (n : Nat) : (s.withSpin n).drvTrace = s.drvTrace := rfl
@[simp] theorem State.withSpin_schedule (n : Nat) : (s.withSpin n).schedule = s.schedule := rfl
@[simp] theorem State.withSpin_slots (n : Nat) : (s.withSpin n).slots = s.slots := rfl
@[simp] theorem State.withSpin_spin (n : Nat) : (s.withSpin n).spin = n := rfl
@[simp] theorem State.withSpin_drvLog (n : Nat) : (s.withSpin n).drvLog = s.drvLog := rfl
@[simp] theorem State.withSpin_rxBytes (n : Nat) : (s.withSpin n).rxBytes = s.rxBytes := rfl
@[simp] theorem State.withSpin_txBytes (n : Nat) : (s.withSpin n).txBytes = s.txBytes := rfl
@[simp] theorem State.withSpin_sent (n : Nat) : (s.withSpin n).sent = s.sent := rfl

@[simp] theorem State.withPs_drvLog (x : Parser) : (s.withPs x).drvLog = s.drvLog := rfl
@[simp] theorem State.withPs_rxBytes (x : Parser) : (s.withPs x).rxBytes = s.rxBytes := rfl
@[simp] theorem State.withPs_txBytes (x : Parser) : (s.withPs x).txBytes = s.txBytes := rfl
@[simp] theorem State.withPs_sent (x : Parser) : (s.withPs x).sent = s.sent := rfl
@[simp] theorem State.withRx_drvLog (x : Ring) : (s.withRx x).drvLog = s.drvLog := rfl
@[simp] theorem State.withRx_txBytes (x : Ring) : (s.withRx x).txBytes = s.txBytes := rfl
@[simp] theorem State.withRx_sent (x : Ring) : (s.withRx x).sent = s.sent := rfl
@[simp] theorem State.withTx_drvLog (x : Ring) : (s.withTx x).drvLog = s.drvLog := rfl
@[simp] theorem State.withTx_rxBytes (x : Ring) : (s.withTx x).rxBytes = s.rxBytes := rfl
@[simp] theorem State.wire_drvLog (b : Byte) : (s.wire b).drvLog = s.drvLog := rfl
@[simp] theorem State.wire_rxBytes (b : Byte) : (s.wire b).rxBytes = s.rxBytes := rfl
@[simp] theorem State.wire_txBytes (b : Byte) : (s.wire b).txBytes = s.txBytes := rfl
@[simp] theorem State.driver_rxBytes (e : DrvEvent) : (s.driver e).rxBytes = s.rxBytes := rfl
@[simp] theorem State.driver_txBytes (e : DrvEvent) : (s.driver e).txBytes = s.txBytes := rfl
@[simp] theorem State.driver_sent (e : DrvEvent) : (s.driver e).sent = s.sent := rfl
@[simp] theorem State.withSchedule_drvLog (x : List Event) : (s.withSchedule x).drvLog = s.drvLog := rfl
@[simp] theorem State.withSchedule_rxBytes (x : List Event) : (s.withSchedule x).rxBytes = s.rxBytes := rfl
@[simp] theorem State.withSchedule_txBytes (x : List Event) : (s.withSchedule x).txBytes = s.txBytes := rfl
@[simp] theorem State.withSchedule_sent (x : List Event) : (s.withSchedule x).sent = s.sent := rfl
@[simp] theorem State.withSlots_drvLog (x : List (List Irq)) : (s.withSlots x).drvLog = s.drvLog := rfl
@[simp] theorem State.withSlots_rxBytes (x : List (List Irq)) : (s.withSlots x).rxBytes = s.rxBytes := rfl
@[simp] theorem State.withSlots_txBytes (x : List (List Irq)) : (s.withSlots x).txBytes = s.txBytes := rfl
@[simp] theorem State.withSlots_sent (x : List (List Irq)) : (s.withSlots x).sent = s.sent := rfl

@[simp] theorem State.driver_call_drvLog (c : DrvCall) : (s.driver (.call c)).drvLog = s.drvLog ++ [c] := by
  simp [State.drvLog, DrvEvent.call?]

@[simp] theorem State.driver_peripheral_drvLog : (s.driver .peripheral).drvLog = s.drvLog := by
  simp [State.drvLog, DrvEvent.call?]

@[simp] theorem State.driver_restart_drvLog : (s.driver .restart).drvLog = s.drvLog := by
  simp [State.drvLog, DrvEvent.call?]

end Sys2Proof.Machine
end

