-- ==== Sys2Proof/Laws/Ops.lean ====
section
/-! SUPPORT. What the shared operations can do, said once each: interrupt events, driver calls, replies and the terminal
step. `Runs cs s s'` says everything that holds between a state and a later one when nothing but interrupt events and the
driver calls `cs` happened; `Points k s s'` says what the interrupt events of `k` points of a Decode have done. -/

namespace Sys2Proof.Machine

/-- From `s` to `s'` nothing happened but interrupt events and the driver calls `cs`, in that order. -/
structure Runs (cs : List DrvCall) (s s' : State) : Prop where
  params : s'.params = s.params
  ps : s'.ps = s.ps
  schedule : s'.schedule = s.schedule
  spin : s'.spin = s.spin
  drvLog : s'.drvLog = s.drvLog ++ cs
  rxWf : s.params.ok = true → s.rx.wf s.params.rxCap = true → s'.rx.wf s'.params.rxCap = true
  txWf : s.params.ok = true → s.tx.wf s.params.txCap = true → s'.tx.wf s'.params.txCap = true
  sent : s.params.ok = true → s.tx.wf s.params.txCap = true → s'.sent = s.sent
  occ : s'.tx.occ ≤ s.tx.occ
  wireOut : s.wireOut <+: s'.wireOut
  drvTrace : s.drvTrace <+: s'.drvTrace

theorem Runs.refl (s : State) : Runs [] s s :=
  ⟨rfl, rfl, rfl, rfl, by simp, fun _ h => h, fun _ h => h, fun _ _ => rfl, Nat.le_refl _, List.prefix_rfl, List.prefix_rfl⟩

theorem Runs.trans {cs ds : List DrvCall} {s t u : State} (h : Runs cs s t) (g : Runs ds t u) :
    Runs (cs ++ ds) s u where
  params := g.params.trans h.params
  ps := g.ps.trans h.ps
  schedule := g.schedule.trans h.schedule
  spin := g.spin.trans h.spin
  drvLog := by rw [g.drvLog, h.drvLog, List.append_assoc]
  rxWf := fun hp hw => g.rxWf (by rw [h.params]; exact hp) (h.rxWf hp hw)
  txWf := fun hp hw => g.txWf (by rw [h.params]; exact hp) (h.txWf hp hw)
  sent := fun hp hw => (g.sent (by rw [h.params]; exact hp) (h.txWf hp hw)).trans (h.sent hp hw)
  occ := Nat.le_trans g.occ h.occ
  wireOut := h.wireOut.trans g.wireOut
  drvTrace := h.drvTrace.trans g.drvTrace

/-! ## Interrupt events -/

/-- `RxArrive` touches `rx` alone (20_memory.md R58, 10_state.md R32). -/
theorem rxArrive_runs (b : Byte) (s : State) : Runs [] s (rxArrive b s) where
  params := rfl
  ps := rfl
  schedule := rfl
  spin := rfl
  drvLog := by simp [rxArrive]
  rxWf := fun hp hw => Ring.push_wf b (Params.ok_iff.1 hp).1 hw
  txWf := fun _ hw => hw
  sent := fun _ _ => rfl
  occ := Nat.le_refl _
  wireOut := List.prefix_rfl
  drvTrace := List.prefix_rfl

/-- `TxDrain` moves the oldest byte of `tx` to the wire and touches nothing else (R59). -/
theorem txDrain_runs (s : State) : Runs [] s (txDrain s) := by
  unfold txDrain
  cases h : s.tx.pop s.params.txCap with
  | none => exact Runs.refl s
  | some br =>
    obtain ⟨b, r⟩ := br
    refine ⟨rfl, rfl, rfl, rfl, by simp, fun _ hw => hw, fun hp hw => ?_, fun hp hw => ?_, ?_, ?_, List.prefix_rfl⟩
    · exact (Ring.pop_some (Params.ok_iff.1 hp).2.1 hw h).2.1
    · have := (Ring.pop_some (Params.ok_iff.1 hp).2.1 hw h).1
      simp [State.sent, State.txBytes, this]
    · simp only [Ring.pop] at h
      split at h
      · simp only [Option.some.injEq, Prod.mk.injEq] at h
        obtain ⟨-, rfl⟩ := h
        simp
      · simp at h
    · simp

/-- Everything an interrupt event can do (60_exceptions.md R207). -/
theorem runIrq_runs (e : Irq) (s : State) : Runs [] s (runIrq e s) := by
  cases e with
  | rxArrive b => exact rxArrive_runs b s
  | txDrain => exact txDrain_runs s
  | peripheral =>
    exact ⟨rfl, rfl, rfl, rfl, by simp [runIrq], fun _ h => h, fun _ h => h, fun _ _ => rfl, Nat.le_refl _, List.prefix_rfl,
      by simp [runIrq]⟩

theorem runIrqs_runs (es : List Irq) (s : State) : Runs [] s (runIrqs es s) := by
  induction es generalizing s with
  | nil => exact Runs.refl s
  | cons e es ih => exact (runIrq_runs e s).trans (ih (runIrq e s))

@[simp] theorem runIrq_slots (e : Irq) (s : State) : (runIrq e s).slots = s.slots := by
  cases e with
  | rxArrive b => rfl
  | txDrain => simp only [runIrq, txDrain]; split <;> rfl
  | peripheral => rfl

@[simp] theorem runIrqs_slots (es : List Irq) (s : State) : (runIrqs es s).slots = s.slots := by
  induction es generalizing s with
  | nil => rfl
  | cons e es ih => simp [runIrqs, ih]

theorem withSlots_runs (sl : List (List Irq)) (s : State) : Runs [] s (s.withSlots sl) :=
  ⟨rfl, rfl, rfl, rfl, by simp, fun _ h => h, fun _ h => h, fun _ _ => rfl, Nat.le_refl _, List.prefix_rfl, List.prefix_rfl⟩

/-- Everything a point inside a Decode can do: interrupt events and no more (20_memory.md R66). -/
theorem preempt_runs (s : State) : Runs [] s (preempt s) := by
  unfold preempt
  split
  · exact Runs.refl s
  · exact (withSlots_runs _ s).trans (runIrqs_runs _ _)

@[simp] theorem preempt_slots (s : State) : (preempt s).slots = s.slots.tail := by
  unfold preempt
  split <;> simp_all

/-- With no interrupt event falling inside it, a point of a Decode does nothing. -/
theorem preempt_nil {s : State} (h : s.slots = []) : preempt s = s := by
  simp [preempt, h]

/-- Everything the end of a Decode can do. -/
theorem endDecode_runs (s : State) : Runs [] s (endDecode s) :=
  (withSlots_runs [] s).trans (runIrqs_runs _ _)

@[simp] theorem endDecode_slots (s : State) : (endDecode s).slots = [] := by
  simp [endDecode]

theorem endDecode_nil {s : State} (h : s.slots = []) : endDecode s = s := by
  cases s
  simp_all [endDecode, runIrqs, State.withSlots]

/-! ## The points of a Decode -/

/-- From `s` to `s'` the interrupt events of the next `k` points of the Decode have happened, in order, and nothing besides
them took bytes from `tx` or touched `rx` (20_memory.md R66). -/
structure Points (k : Nat) (s s' : State) : Prop where
  params : s'.params = s.params
  slots : s'.slots = s.slots.drop k
  rx : s'.rx = s.rx.receive s.params.rxCap (arrivals (s.slots.take k).flatten)
  peripheral : s'.drvTrace.count .peripheral = s.drvTrace.count .peripheral + (s.slots.take k).flatten.count .peripheral
  txWf : s.params.ok = true → s.tx.wf s.params.txCap = true → s'.tx.wf s'.params.txCap = true
  drains : s.params.ok = true → s.tx.wf s.params.txCap = true →
    (s.slots.take k).flatten.count .txDrain ≤ s.txBytes.length →
    (∃ new, s'.txBytes = s.txBytes.drop ((s.slots.take k).flatten.count .txDrain) ++ new) ∧
    s'.wireOut = s.wireOut ++ s.txBytes.take ((s.slots.take k).flatten.count .txDrain)

@[simp] theorem arrivals_append (es fs : List Irq) : arrivals (es ++ fs) = arrivals es ++ arrivals fs :=
  List.filterMap_append

@[simp] theorem Ring.receive_append (cap : Nat) (r : Ring) (bs cs : List Byte) :
    r.receive cap (bs ++ cs) = (r.receive cap bs).receive cap cs :=
  List.foldl_append

theorem Points.refl (s : State) : Points 0 s s :=
  ⟨rfl, rfl, rfl, by simp, fun _ h => h, fun _ _ _ => ⟨⟨[], by simp⟩, by simp⟩⟩

theorem Points.trans {j k : Nat} {s t u : State} (h : Points j s t) (g : Points k t u) : Points (j + k) s u := by
  have hsl : (s.slots.take (j + k)).flatten = (s.slots.take j).flatten ++ (t.slots.take k).flatten := by
    rw [h.slots, List.take_add, List.flatten_append]
  refine ⟨g.params.trans h.params, by rw [g.slots, h.slots, List.drop_drop], ?_, ?_,
    fun hp hw => g.txWf (h.params ▸ hp) (h.txWf hp hw), fun hp hw hc => ?_⟩
  · rw [g.rx, h.rx, hsl, arrivals_append, Ring.receive_append, h.params]
  · rw [g.peripheral, h.peripheral, hsl, List.count_append, Nat.add_assoc]
  · rw [hsl, List.count_append] at hc ⊢
    obtain ⟨⟨q, hq⟩, hwire⟩ := h.drains hp hw (by omega)
    have hlen : (t.slots.take k).flatten.count .txDrain ≤
        (s.txBytes.drop ((s.slots.take j).flatten.count .txDrain)).length := by
      rw [List.length_drop]
      omega
    obtain ⟨⟨q', hq'⟩, hwire'⟩ := g.drains (h.params ▸ hp) (h.txWf hp hw) (by rw [hq, List.length_append]; omega)
    refine ⟨⟨q ++ q', ?_⟩, ?_⟩
    · rw [hq', hq, List.drop_append_of_le_length hlen, List.drop_drop, List.append_assoc]
    · rw [hwire', hwire, hq, List.take_append_of_le_length hlen, List.take_add, List.append_assoc]

/-- What interrupt events do: as one point that carries them all. -/
theorem runIrqs_points (es : List Irq) (rest : List (List Irq)) (s : State) (h : s.slots = es :: rest) :
    Points 1 s (runIrqs es (s.withSlots rest)) := by
  have key : ∀ (es : List Irq) (s : State),
      (runIrqs es s).rx = s.rx.receive s.params.rxCap (arrivals es) ∧
      (runIrqs es s).drvTrace.count .peripheral = s.drvTrace.count .peripheral + es.count .peripheral ∧
      (s.params.ok = true → s.tx.wf s.params.txCap = true → es.count .txDrain ≤ s.txBytes.length →
        (runIrqs es s).txBytes = s.txBytes.drop (es.count .txDrain) ∧
        (runIrqs es s).wireOut = s.wireOut ++ s.txBytes.take (es.count .txDrain)) := by
    intro es
    induction es with
    | nil => intro s; exact ⟨rfl, by simp [runIrqs], fun _ _ _ => by simp [runIrqs]⟩
    | cons e es ih =>
      intro s
      obtain ⟨h1, h2, h3⟩ := ih (runIrq e s)
      have r := runIrq_runs e s
      rw [runIrqs, h1, h2, r.params]
      cases e with
      | rxArrive b =>
        have hn : (Irq.rxArrive b :: es).count .txDrain = es.count .txDrain := by simp
        exact ⟨rfl, by simp [runIrq, rxArrive], fun hp hw hc => by rw [hn] at hc ⊢; exact h3 hp hw hc⟩
      | peripheral =>
        have hn : (Irq.peripheral :: es).count .txDrain = es.count .txDrain := by simp
        exact ⟨rfl, by simp [runIrq]; omega, fun hp hw hc => by rw [hn] at hc ⊢; exact h3 hp hw hc⟩
      | txDrain =>
        refine ⟨?_, ?_, fun hp hw hc => ?_⟩
        · simp only [runIrq, txDrain]
          split <;> rfl
        · simp only [runIrq, txDrain]
          split <;> simp
        · simp only [List.count_cons_self] at hc ⊢
          obtain ⟨b, q, hq⟩ := Ring.pop_isSome (cap := s.params.txCap) (r := s.tx) (by simp [State.txBytes] at hc; omega)
          have hb := (Ring.pop_some (Params.ok_iff.1 hp).2.1 hw hq).1
          have hbytes : s.txBytes = b :: (runIrq .txDrain s).txBytes := by
            simp only [runIrq, txDrain, hq]
            exact hb
          have hwire : (runIrq .txDrain s).wireOut = s.wireOut ++ [b] := by simp [runIrq, txDrain, hq]
          obtain ⟨i1, i2⟩ := h3 (r.params ▸ hp) (r.txWf hp hw) (by rw [hbytes, List.length_cons] at hc; omega)
          rw [i1, i2, hwire, hbytes]
          simp
  obtain ⟨h1, h2, h3⟩ := key es (s.withSlots rest)
  have r := (withSlots_runs rest s).trans (runIrqs_runs es _)
  have hes : (s.slots.take 1).flatten = es := by simp [h]
  refine ⟨r.params, by simp [h], by rw [hes]; exact h1, by rw [hes]; exact h2, r.txWf, ?_⟩
  rw [hes]
  exact fun hp hw hc => ⟨⟨[], by rw [List.append_nil]; exact (h3 hp hw hc).1⟩, (h3 hp hw hc).2⟩

/-- A point of a Decode lets the events of the next list happen. -/
theorem preempt_points (s : State) : Points 1 s (preempt s) := by
  unfold preempt
  split
  · rename_i h
    exact ⟨rfl, by simp [h], by simp [h, arrivals, Ring.receive], by simp [h], fun _ hw => hw,
      fun _ _ _ => ⟨⟨[], by simp [h]⟩, by simp [h]⟩⟩
  · rename_i es rest h
    exact runIrqs_points es rest s h

/-- The end of a Decode lets the events of every list left happen. -/
theorem endDecode_points (s : State) : Points s.slots.length s (endDecode s) := by
  have p := runIrqs_points s.slots.flatten [] (s.withSlots [s.slots.flatten]) rfl
  have e : endDecode s = runIrqs s.slots.flatten ((s.withSlots [s.slots.flatten]).withSlots []) := rfl
  rw [e]
  refine ⟨p.params, by simp, ?_, ?_, p.txWf, ?_⟩
  · simpa using p.rx
  · simpa using p.peripheral
  · simpa [State.txBytes] using p.drains

/-- A driver call itself lets no interrupt event happen. -/
theorem Points.driver {k : Nat} {s t : State} (h : Points k s t) (c : DrvCall) : Points k s (t.driver (.call c)) :=
  ⟨h.params, h.slots, h.rx, by simpa using h.peripheral, h.txWf, h.drains⟩

/-! ## Driver calls -/

theorem driver_call_runs (c : DrvCall) (s : State) : Runs [c] s (s.driver (.call c)) :=
  ⟨rfl, rfl, rfl, rfl, by simp, fun _ h => h, fun _ h => h, fun _ _ => rfl, Nat.le_refl _, List.prefix_rfl, by simp⟩

/-- A driver call logs that call; besides it only interrupt events happen. -/
theorem drvCall_runs (c : DrvCall) (s : State) : Runs [c] s (drvCall c s) :=
  (preempt_runs s).trans (driver_call_runs c _)

theorem drvTempSample_runs (s : State) :
    Runs [.tempSample (drvTempSample s).1] s (drvTempSample s).2 :=
  (preempt_runs s).trans (driver_call_runs _ _)

theorem drvGpioRead_runs (pin : Byte) (s : State) :
    Runs [.gpioRead pin (drvGpioRead pin s).1] s (drvGpioRead pin s).2 :=
  (preempt_runs s).trans (driver_call_runs _ _)

theorem drvAdcRead_runs (ch : Byte) (s : State) :
    Runs [.adcRead ch (drvAdcRead ch s).1] s (drvAdcRead ch s).2 :=
  (preempt_runs s).trans (driver_call_runs _ _)

theorem drvI2cRead_runs (addr off n : Byte) (s : State) :
    Runs [.i2cRead addr off n (drvI2cRead addr off n s).1] s (drvI2cRead addr off n s).2 :=
  (preempt_runs s).trans (driver_call_runs _ _)

theorem drvCounterRead_runs (pin : Byte) (s : State) :
    Runs [.counterRead pin (drvCounterRead pin s).1] s (drvCounterRead pin s).2 :=
  (preempt_runs s).trans (driver_call_runs _ _)

/-- `drv.adc_read` of several channels has one point before each call. -/
theorem drvAdcReads_points (chs : List Byte) (s : State) : Points chs.length s (drvAdcReads chs s).2 := by
  induction chs generalizing s with
  | nil => exact Points.refl s
  | cons ch chs ih =>
    rw [List.length_cons, Nat.add_comm]
    exact ((preempt_points s).driver _).trans (ih (drvAdcRead ch s).2)

/-- Several samples are logged in the order of the channels, each with the value drawn (43_analog.md R161). -/
theorem drvAdcReads_runs (chs : List Byte) (s : State) :
    Runs (List.zipWith DrvCall.adcRead chs (drvAdcReads chs s).1) s (drvAdcReads chs s).2 := by
  induction chs generalizing s with
  | nil => exact Runs.refl s
  | cons ch chs ih => exact (drvAdcRead_runs ch s).trans (ih _)

@[simp] theorem drvAdcReads_length (chs : List Byte) (s : State) : (drvAdcReads chs s).1.length = chs.length := by
  induction chs generalizing s with
  | nil => rfl
  | cons ch chs ih => simp [drvAdcReads, ih]

@[simp] theorem drvI2cRead_length (addr off n : Byte) (s : State) : (drvI2cRead addr off n s).1.length = n.toNat := by
  simp [drvI2cRead]

/-! ## Replies -/

/-- Between `s` and `s'` the frame `f` was offered to `tx` byte by byte, interrupt events aside. -/
structure Emits (f : List Byte) (s s' : State) : Prop where
  params : s'.params = s.params
  ps : s'.ps = s.ps
  schedule : s'.schedule = s.schedule
  spin : s'.spin = s.spin
  drvLog : s'.drvLog = s.drvLog
  rxWf : s.params.ok = true → s.rx.wf s.params.rxCap = true → s'.rx.wf s'.params.rxCap = true
  txWf : s.params.ok = true → s.tx.wf s.params.txCap = true → s'.tx.wf s'.params.txCap = true
  sent : s.params.ok = true → s.tx.wf s.params.txCap = true → s.tx.occ + f.length ≤ s.params.txCap →
    s'.sent = s.sent ++ f
  wireOut : s.wireOut <+: s'.wireOut
  drvTrace : s.drvTrace <+: s'.drvTrace

/-- Everything `emit` can do (40_dispatcher.md R124): with room for the whole frame, all of it is stored in order,
whatever interrupt events fall between its pushes. -/
theorem emit_emits (f : List Byte) (s : State) : Emits f s (emit f s) := by
  induction f generalizing s with
  | nil =>
    exact ⟨rfl, rfl, rfl, rfl, rfl, fun _ h => h, fun _ h => h, fun _ _ _ => by simp [emit], List.prefix_rfl, List.prefix_rfl⟩
  | cons b f ih =>
    have g := preempt_runs s
    have e := ih (txPush b (preempt s))
    have hwf : s.params.ok = true → s.tx.wf s.params.txCap = true →
        (txPush b (preempt s)).tx.wf (txPush b (preempt s)).params.txCap = true := fun hp hw =>
      Ring.push_wf b (Params.ok_iff.1 (g.params ▸ hp)).2.1 (g.txWf hp hw)
    refine ⟨e.params.trans g.params, e.ps.trans g.ps, e.schedule.trans g.schedule, e.spin.trans g.spin, e.drvLog.trans (by simpa [txPush] using g.drvLog),
      fun hp hw => e.rxWf (g.params ▸ hp) (g.rxWf hp hw), fun hp hw => e.txWf (g.params ▸ hp) (hwf hp hw), fun hp hw hr => ?_,
      g.wireOut.trans e.wireOut, g.drvTrace.trans e.drvTrace⟩
    have hocc := g.occ
    have hpar := g.params
    have hlt : (preempt s).tx.occ < (preempt s).params.txCap := by
      rw [hpar]
      simp only [List.length_cons] at hr
      omega
    have hpush : (txPush b (preempt s)).sent = s.sent ++ [b] := by
      rw [← g.sent hp hw]
      simp only [State.sent, txPush, State.withTx_wireOut, State.txBytes, State.withTx_tx, State.withTx_params]
      rw [Ring.push_bytes b (Params.ok_iff.1 (hpar ▸ hp)).2.1 (g.txWf hp hw) hlt, List.append_assoc]
    have hroom : (txPush b (preempt s)).tx.occ + f.length ≤ (txPush b (preempt s)).params.txCap := by
      simp only [txPush, State.withTx_tx, State.withTx_params, Ring.push_occ, if_pos hlt]
      rw [hpar]
      simp only [List.length_cons] at hr
      omega
    exact (e.sent (hpar ▸ hp) (hwf hp hw) hroom).trans (by rw [hpush, List.append_assoc]; rfl)

/-- Dropping the newest byte early or late makes no difference. -/
theorem take_take_append (n : Nat) (x f : List Byte) : (x.take n ++ f).take n = (x ++ f).take n := by
  simp only [List.take_append, List.take_take, List.length_take, Nat.min_self]
  congr 2
  omega

/-- With no interrupt event falling inside it, `emit` appends to the bytes waiting as far as there is room, the newest
lost, and touches nothing but `tx` (R124, 20_memory.md R60). -/
theorem emit_atomic {f : List Byte} {s : State} (hp : s.params.ok = true) (hw : s.tx.wf s.params.txCap = true)
    (hs : s.slots = []) :
    (emit f s).txBytes = (s.txBytes ++ f).take s.params.txCap ∧ emit f s = s.withTx (emit f s).tx := by
  induction f generalizing s with
  | nil =>
    refine ⟨?_, rfl⟩
    rw [emit, List.append_nil, List.take_of_length_le (by simpa [State.txBytes] using (Ring.wf_iff.1 hw).1)]
  | cons b f ih =>
    have hpw := (Params.ok_iff.1 hp).2.1
    obtain ⟨h1, h2⟩ := ih (s := txPush b s) hp (Ring.push_wf b hpw hw) hs
    rw [emit, preempt_nil hs]
    constructor
    · rw [h1]
      simp only [txPush, State.txBytes, State.withTx_tx, State.withTx_params, Ring.push_bytes_take b hpw hw]
      rw [take_take_append, List.append_assoc]
      rfl
    · rw [h2]
      rfl

/-- `emit` has one point before each of its pushes. -/
theorem emit_points (f : List Byte) (s : State) : Points f.length s (emit f s) := by
  induction f generalizing s with
  | nil => exact Points.refl s
  | cons b f ih =>
    have g := preempt_points s
    have hpush : Points 0 (preempt s) (txPush b (preempt s)) := by
      refine ⟨rfl, rfl, rfl, by simp [txPush], fun hp hw => Ring.push_wf b (Params.ok_iff.1 hp).2.1 hw, fun hp hw _ => ?_⟩
      refine ⟨?_, by simp [txPush]⟩
      simp only [List.take_zero, List.flatten_nil, List.count_nil, List.drop_zero, txPush, State.txBytes, State.withTx_tx,
        State.withTx_params]
      by_cases h : (preempt s).tx.occ < (preempt s).params.txCap
      · exact ⟨[b], Ring.push_bytes b (Params.ok_iff.1 hp).2.1 hw h⟩
      · exact ⟨[], by rw [Ring.push_full b (by omega), List.append_nil]⟩
    have := (g.trans hpush).trans (ih (txPush b (preempt s)))
    rw [List.length_cons, Nat.add_comm]
    exact this

@[simp] theorem awaitNext_ps (s : State) : (awaitNext s).ps = { s.ps with top := .awaitingClassTag } := rfl

/-- Everything an OK reply can do (40_dispatcher.md R122, R121). -/
theorem replyOk_spec (m : Cmd) (data : List Byte) (s : State) :
    ∃ t, Emits (okFrame s.params m data) s t ∧ replyOk m data s = t.withPs { s.ps with top := .awaitingClassTag } := by
  refine ⟨emit (okFrame s.params m data) s, emit_emits _ s, ?_⟩
  rw [replyOk, awaitNext, (emit_emits _ s).ps]

/-- Everything a NOK reply can do (R123, R121): no driver call, and of `ps` only `top` changes (60_exceptions.md R204). -/
theorem replyNok_spec (m : Cmd) (s : State) :
    ∃ t, Emits (nokFrame s.params m) s t ∧ replyNok m s = t.withPs { s.ps with top := .awaitingClassTag } := by
  refine ⟨emit (nokFrame s.params m) s, emit_emits _ s, ?_⟩
  rw [replyNok, awaitNext, (emit_emits _ s).ps]

/-! ## The terminal step -/

/-- A good checksum and arguments in range: the calls, then the OK reply (R120). -/
theorem terminal_ok {m : Cmd} {k : Byte} {r : Bool} {run : State → List Byte × State} {s : State}
    (hk : k = s.ps.csum) (hr : r = true) : terminal m k r run s = .next (replyOk m (run s).1 (run s).2) := by
  rw [terminal, if_pos ⟨hk, hr⟩]

/-- Otherwise the NOK reply and no call (R120, 60_exceptions.md R204). -/
theorem terminal_nok {m : Cmd} {k : Byte} {r : Bool} {run : State → List Byte × State} {s : State}
    (h : ¬(k = s.ps.csum ∧ r = true)) : terminal m k r run s = .next (replyNok m s) := by
  rw [terminal, if_neg h]

end Sys2Proof.Machine
end

