-- ==== Sys2Proof/Laws/Exec.lean ====
section
/-! SUPPORT. What a command can do, said once for all fifteen: `exec_nok` and `exec_ok` are the two outcomes of a terminal
step, and what the last two steps of a Decode leave follows from them. -/

namespace Sys2Proof.Machine

/-- Nothing but the drivers' history differs: what driver calls do when no interrupt event falls inside the Decode. -/
structure Still (s s' : State) : Prop where
  rx : s'.rx = s.rx
  tx : s'.tx = s.tx
  wireOut : s'.wireOut = s.wireOut
  slots : s'.slots = []

theorem Still.refl {s : State} (h : s.slots = []) : Still s s := ⟨rfl, rfl, rfl, h⟩

theorem Still.driver {s : State} (h : s.slots = []) (e : DrvEvent) : Still s ((preempt s).driver e) := by
  rw [preempt_nil h]
  exact ⟨rfl, rfl, rfl, h⟩

theorem drvAdcReads_still (chs : List Byte) {s : State} (h : s.slots = []) : Still s (drvAdcReads chs s).2 := by
  induction chs generalizing s with
  | nil => exact Still.refl h
  | cons ch chs ih =>
    have a : Still s (drvAdcRead ch s).2 := Still.driver h _
    have b := ih a.slots
    exact ⟨b.rx.trans a.rx, b.tx.trans a.tx, b.wireOut.trans a.wireOut, b.slots⟩

/-- The terminal step of a command that fails: the NOK reply and nothing else (40_dispatcher.md R120, R123). -/
theorem exec_nok {i : Instr} {s : State} (h : ¬(i.lastByte = s.ps.csum ∧ valid s.params i = true)) :
    exec i s = .next (replyNok i.cmd s) := by
  cases i <;>
    simp only [exec, execMiscReset, execMiscGetId, execMiscGetTemp, execGpioConfig, execGpioRead, execGpioWrite,
      execAnalogRead, execAnalogReadAll, execI2cConfig, execI2cRead, execI2cWrite, execServoConfig, execServoSet,
      execCounterConfig, execCounterRead, terminal] <;>
    simp only [Instr.lastByte, valid, and_true] at h <;> simp only [h, and_true, if_false] <;> rfl

/-- What the terminal step of a command that succeeds answers: after its driver calls the OK reply with the data drawn,
and then, for Misc Reset alone, the halt. -/
structure Succeeds (m : Cmd) (a : Answer) (s : State) (data : List Byte) (s' : State) (cs : List DrvCall) : Prop where
  answer : a = .next (if m = .miscReset then halt (replyOk m data s') else replyOk m data s')
  runs : Runs cs s s'
  still : s.slots = [] → Still s s'
  length : data.length ≤ max 12 s.params.i2cRdCap.toNat
  points : Points cs.length s s'

/-- A command made by `terminal` succeeds when its driver calls do no more than calls may. -/
theorem terminal_succeeds {m : Cmd} {k : Byte} {r : Bool} {run : State → List Byte × State} {s : State}
    {cs : List DrvCall} (hm : m ≠ .miscReset) (hk : k = s.ps.csum) (hr : r = true) (runs : Runs cs s (run s).2)
    (still : s.slots = [] → Still s (run s).2) (length : (run s).1.length ≤ max 12 s.params.i2cRdCap.toNat)
    (points : Points cs.length s (run s).2) :
    ∃ data s' cs, Succeeds m (terminal m k r run s) s data s' cs :=
  ⟨_, _, _, by rw [terminal_ok hk hr, if_neg hm], runs, still, length, points⟩

/-- The terminal step of a command that succeeds (40_dispatcher.md R120, R126). -/
theorem exec_ok {i : Instr} {s : State} (h : i.lastByte = s.ps.csum ∧ valid s.params i = true) :
    ∃ data s' cs, Succeeds i.cmd (exec i s) s data s' cs := by
  obtain ⟨hk, hv⟩ := h
  cases i with
  | miscReset k =>
    have hk : k = s.ps.csum := hk
    exact ⟨[], s, [], by simp [exec, execMiscReset, hk, Instr.cmd], Runs.refl s, Still.refl, by simp, Points.refl s⟩
  | miscGetId k =>
    simp only [exec, execMiscGetId, Instr.cmd]
    exact terminal_succeeds (by decide) hk hv (Runs.refl s) Still.refl (by simp) (Points.refl s)
  | miscGetTemp k =>
    simp only [exec, execMiscGetTemp, Instr.cmd]
    exact terminal_succeeds (by decide) hk hv (drvTempSample_runs s) (fun hs => Still.driver hs _) (by simp)
      ((preempt_points s).driver _)
  | gpioConfig pin opt k =>
    simp only [exec, execGpioConfig, Instr.cmd]
    exact terminal_succeeds (by decide) hk hv (drvCall_runs _ s) (fun hs => Still.driver hs _) (by simp [noData])
      ((preempt_points s).driver _)
  | gpioRead pin k =>
    simp only [exec, execGpioRead, Instr.cmd]
    exact terminal_succeeds (by decide) hk hv (drvGpioRead_runs pin s) (fun hs => Still.driver hs _) (by simp)
      ((preempt_points s).driver _)
  | gpioWrite pin v k =>
    simp only [exec, execGpioWrite, Instr.cmd]
    exact terminal_succeeds (by decide) hk hv (drvCall_runs _ s) (fun hs => Still.driver hs _) (by simp [noData])
      ((preempt_points s).driver _)
  | analogRead ch k =>
    simp only [exec, execAnalogRead, Instr.cmd]
    exact terminal_succeeds (by decide) hk hv (drvAdcRead_runs ch s) (fun hs => Still.driver hs _) (by simp [readingBytes])
      ((preempt_points s).driver _)
  | analogReadAll k =>
    simp only [exec, execAnalogReadAll, Instr.cmd]
    have hl : (drvAdcReads allChannels s).1.length = 6 := by simp [allChannels]
    refine terminal_succeeds (by decide) hk hv (drvAdcReads_runs allChannels s) (drvAdcReads_still _) ?_ ?_
    · simp [List.length_flatMap, readingBytes, hl]
    · simpa [hl, allChannels] using drvAdcReads_points allChannels s
  | i2cConfig sel k =>
    simp only [exec, execI2cConfig, Instr.cmd]
    exact terminal_succeeds (by decide) hk hv (drvCall_runs _ s) (fun hs => Still.driver hs _) (by simp [noData])
      ((preempt_points s).driver _)
  | i2cRead addr off n k =>
    simp only [exec, execI2cRead, Instr.cmd]
    have hn : n.toNat ≤ s.params.i2cRdCap.toNat := by simpa [valid] using hv
    exact terminal_succeeds (by decide) hk hv (drvI2cRead_runs addr off n s) (fun hs => Still.driver hs _)
      (by simp [hn])
      ((preempt_points s).driver _)
  | i2cWrite addr off n data k =>
    simp only [exec, execI2cWrite, Instr.cmd]
    exact terminal_succeeds (by decide) hk hv (drvCall_runs _ s) (fun hs => Still.driver hs _) (by simp [noData])
      ((preempt_points s).driver _)
  | servoConfig pin pw k =>
    simp only [exec, execServoConfig, Instr.cmd]
    exact terminal_succeeds (by decide) hk hv (drvCall_runs _ s) (fun hs => Still.driver hs _) (by simp [noData])
      ((preempt_points s).driver _)
  | servoSet pin pw k =>
    simp only [exec, execServoSet, Instr.cmd]
    exact terminal_succeeds (by decide) hk hv (drvCall_runs _ s) (fun hs => Still.driver hs _) (by simp [noData])
      ((preempt_points s).driver _)
  | counterConfig pin opt k =>
    simp only [exec, execCounterConfig, Instr.cmd]
    exact terminal_succeeds (by decide) hk hv (drvCall_runs _ s) (fun hs => Still.driver hs _) (by simp [noData])
      ((preempt_points s).driver _)
  | counterRead pin k =>
    simp only [exec, execCounterRead, Instr.cmd]
    exact terminal_succeeds (by decide) hk hv (drvCounterRead_runs pin s) (fun hs => Still.driver hs _) (by simp)
      ((preempt_points s).driver _)

/-- The interrupt events of a terminal step: one point before each driver call it makes and before each byte of the reply
it offers (20_memory.md R66). -/
theorem exec_points (i : Instr) (s : State) : ∃ (t : State) (k : Nat), exec i s = .next t ∧ Points k s t := by
  have ps : ∀ {k : Nat} {t : State} (p : Parser), Points k s t → Points k s (t.withPs p) := fun p h =>
    ⟨h.params, h.slots, h.rx, h.peripheral, h.txWf, h.drains⟩
  by_cases h : i.lastByte = s.ps.csum ∧ valid s.params i = true
  · obtain ⟨data, s', cs, r⟩ := exec_ok h
    have e := ps { (emit (okFrame s'.params i.cmd data) s').ps with top := .awaitingClassTag }
      (r.points.trans (emit_points (okFrame s'.params i.cmd data) s'))
    refine ⟨_, cs.length + (okFrame s'.params i.cmd data).length, r.answer, ?_⟩
    split
    · exact ps _ e
    · exact e
  · exact ⟨_, _, exec_nok h, ps _ (emit_points (nokFrame s.params i.cmd) s)⟩

end Sys2Proof.Machine
end

