-- ==== Sys2Proof/Laws/PerInstr.lean ====
section
/-! SUPPORT. Statements made for every instruction: one family, `FrameShape`, about the instruction as syntax. -/

namespace Sys2Proof.Laws.FrameShape

/-- A well-formed instruction's frame is its two tags, as many argument bytes as its command has (30_encoding.md R83), as
many data bytes as those arguments declare (R100), and the checksum byte it carries, in that order (R80, R82). -/
def Statement (i : Instr) : Prop :=
  ∀ p : Params, i.wellFormed = true → ∃ args data : List Byte,
    encode p i = [i.cmd.cls.tag, i.cmd.tag p] ++ args ++ data ++ [i.lastByte] ∧
      args.length = i.cmd.nfix ∧ data.length = i.cmd.dataLength (Args.ofList args)

/-- Every instruction has that shape. -/
theorem of_wellFormed (i : Instr) : Statement i := fun _ h =>
  ⟨i.argBytes, i.dataBytes, rfl, i.argBytes_length, Instr.dataBytes_length h⟩

theorem miscReset (k : Byte) : Statement (.miscReset k) := of_wellFormed _
theorem miscGetId (k : Byte) : Statement (.miscGetId k) := of_wellFormed _
theorem miscGetTemp (k : Byte) : Statement (.miscGetTemp k) := of_wellFormed _
theorem gpioConfig (pin opt k : Byte) : Statement (.gpioConfig pin opt k) := of_wellFormed _
theorem gpioRead (pin k : Byte) : Statement (.gpioRead pin k) := of_wellFormed _
theorem gpioWrite (pin v k : Byte) : Statement (.gpioWrite pin v k) := of_wellFormed _
theorem analogRead (ch k : Byte) : Statement (.analogRead ch k) := of_wellFormed _
theorem analogReadAll (k : Byte) : Statement (.analogReadAll k) := of_wellFormed _
theorem i2cConfig (sel k : Byte) : Statement (.i2cConfig sel k) := of_wellFormed _
theorem i2cRead (addr off n k : Byte) : Statement (.i2cRead addr off n k) := of_wellFormed _
theorem i2cWrite (addr off n : Byte) (data : List Byte) (k : Byte) : Statement (.i2cWrite addr off n data k) :=
  of_wellFormed _
theorem servoConfig (pin : Byte) (pw : Half) (k : Byte) : Statement (.servoConfig pin pw k) := of_wellFormed _
theorem servoSet (pin : Byte) (pw : Half) (k : Byte) : Statement (.servoSet pin pw k) := of_wellFormed _
theorem counterConfig (pin opt k : Byte) : Statement (.counterConfig pin opt k) := of_wellFormed _
theorem counterRead (pin k : Byte) : Statement (.counterRead pin k) := of_wellFormed _

end Sys2Proof.Laws.FrameShape
end

