-- ==== Sys2Proof/Laws/Step.lean ====
section
/-! SUPPORT. What a step can do, said once: `step_cases` for the events, `step_popsInto` for a step that pops a byte, `decodeByte_cases` for the byte a Decode pops,
`spinTurn_cases` for the Reset spin, `restart_inv` for the two resets. -/

namespace Sys2Proof.Machine

/-- Under legal parameters a step is the next event. -/
theorem step_ok {s : State} (h : s.params.ok = true) : step s = nextEvent s := by
  rw [step, runStep, if_pos h]

/-- Everything a step can do, when it answers a next state (10_state.md R42). -/
theorem step_cases {s t : State} (h : step s = .next t) : s.params.ok = true ∧
    ((s.schedule = [] ∧ unscheduled s = .next t) ∨
     (∃ e es, s.schedule = .irq e :: es ∧ t = runIrq e (s.withSchedule es)) ∨
     (∃ sl es, s.schedule = .decode sl :: es ∧ mainLoop ((s.withSchedule es).withSlots sl) = .next t) ∨
     (∃ es, s.schedule = .watchdogReset :: es ∧ t = watchdogReset (s.withSchedule es)) ∨
     (∃ es, s.schedule = .powerOnReset :: es ∧ t = restart (s.withSchedule es))) := by
  unfold step runStep at h
  split at h
  · rename_i hp
    refine ⟨hp, ?_⟩
    unfold nextEvent at h
    split at h <;> rename_i hs
    · exact .inl ⟨hs, h⟩
    · exact .inr (.inl ⟨_, _, hs, by cases h; rfl⟩)
    · exact .inr (.inr (.inl ⟨_, _, hs, h⟩))
    · exact .inr (.inr (.inr (.inl ⟨_, hs, by cases h; rfl⟩)))
    · exact .inr (.inr (.inr (.inr ⟨_, hs, by cases h; rfl⟩)))
  · cases h

/-- Everything that can happen with nothing scheduled: a turn of the spin, a Decode, a TxDrain. -/
theorem unscheduled_cases {s t : State} (h : unscheduled s = .next t) :
    (s.ps.halted = true ∧ t = spinTurn s) ∨
    (s.ps.halted = false ∧ 0 < s.rx.occ ∧ mainLoop s = .next t) ∨
    (s.ps.halted = false ∧ s.rx.occ = 0 ∧ t = txDrain s) := by
  unfold unscheduled at h
  split at h
  · exact .inl ⟨‹_›, by cases h; rfl⟩
  · rename_i hh
    have hh : s.ps.halted = false := by simpa using hh
    split at h <;> rename_i ha <;> simp only [Ring.avail, decide_eq_true_eq] at ha
    · exact .inr (.inl ⟨hh, ha, h⟩)
    · exact .inr (.inr ⟨hh, by omega, by cases h; rfl⟩)

/-- A step that pops a byte, scheduled or not, is the decode step on it, then the end of the Decode (40_dispatcher.md
R129). -/
theorem step_popsInto {s u : State} {b : Byte} (h : s.popsInto b u) : step s = andThen (decodeByte b u) endDecode := by
  obtain ⟨hp, hh, r, hr, ⟨hs, rfl⟩ | ⟨sl, es, hs, rfl⟩⟩ := h <;>
    conv_lhs => rw [step_ok hp, nextEvent, hs]
  · have ha : s.rx.avail = true := by
      by_contra hn
      simp only [Ring.avail, decide_eq_true_eq] at hn
      rw [Ring.pop_empty (by omega)] at hr
      cases hr
    simp only [unscheduled, hh, ha, mainLoop, hr, Bool.false_eq_true, if_false, if_true]
    rfl
  · simp only [mainLoop, State.withSlots_ps, State.withSlots_rx, State.withSlots_params, State.withSchedule_ps,
      State.withSchedule_rx, State.withSchedule_params, hh, hr, Bool.false_eq_true, if_false]
    rfl

/-- With nothing scheduled and no interrupt event left over the byte is decoded in the state with it popped. -/
theorem State.pops.into {s : State} {b : Byte} {r : Ring} (h : s.pops b r) : s.popsInto b (s.withRx r) :=
  ⟨h.1, h.2.2.2.1, r, h.2.2.2.2, .inl ⟨h.2.1, rfl⟩⟩

/-- `step_popsInto` with nothing scheduled. -/
theorem step_pops {s : State} {b : Byte} {r : Ring} (h : s.pops b r) :
    step s = andThen (decodeByte b (s.withRx r)) endDecode :=
  step_popsInto h.into

/-- The ways a decode step can go: an update of the parser that leaves `halted`, the terminal step of the command whose
tag was accepted, or the fault of a parser position without a rule (40_dispatcher.md R110). -/
inductive Decodes (b : Byte) (s : State) : Answer → Prop where
  | accumulates (ps : Parser) (hh : ps.halted = s.ps.halted) : Decodes b s (.next (s.withPs ps))
  | runs (c : Cls) (m : Cmd) (ht : s.ps.top = .inSub c) (hp : s.ps.phase = .checksum)
      (hl : lookup s.params c s.ps.op = some m) : Decodes b s (exec (accumulated m s.ps b) s)
  | stops (hn : parserOk s.params s.ps = false) : Decodes b s (.fault .impossiblePosition)

/-- Everything a decode step can do. -/
theorem decodeByte_cases (b : Byte) (s : State) : Decodes b s (decodeByte b s) := by
  unfold decodeByte
  cases hc : s.ps.top with
  | awaitingClassTag =>
    simp only [stepAwait]
    split
    · exact .accumulates _ rfl
    · exact .accumulates s.ps rfl
  | inSub c =>
    cases hp : s.ps.phase with
    | dataTag =>
      simp only [stepDataTag]
      split
      · exact .accumulates _ rfl
      · exact .accumulates s.ps rfl
    | args =>
      simp only [stepArgs]
      cases hl : lookup s.params c s.ps.op with
      | none => exact .stops (by simp [parserOk, positionOk, hc, hp, hl])
      | some m =>
        by_cases hi : s.ps.idx < m.nfix
        · simp only [hi, if_true]
          exact .accumulates _ rfl
        · simp only [hi, if_false]
          exact .stops (by simp [parserOk, positionOk, hc, hp, hl, hi])
    | payload =>
      simp only [stepPayload]
      by_cases hi : lookup s.params c s.ps.op = some .i2cWrite ∧ s.ps.cnt < s.ps.args.a2.toNat
      · simp only [hi, and_self, if_true]
        exact .accumulates _ rfl
      · simp only [hi, if_false]
        refine .stops ?_
        by_cases h1 : lookup s.params c s.ps.op = some .i2cWrite
        · have h2 : ¬ s.ps.cnt < s.ps.args.a2.toNat := fun h => hi ⟨h1, h⟩
          simp [parserOk, positionOk, hc, hp, h2]
        · simp [parserOk, positionOk, hc, hp, h1]
    | checksum =>
      simp only [stepChecksum]
      cases hl : lookup s.params c s.ps.op with
      | none => exact .stops (by simp [parserOk, positionOk, hc, hp, hl])
      | some m => exact .runs c m hc hp hl

/-- Everything a turn of the Reset spin can do: restart the device, or drain `tx` and count the turn. -/
theorem spinTurn_cases {s : State} (h : s.ps.halted = true) :
    (Config.watchdogTurns s.drvTrace ≤ s.spin ∧ spinTurn s = restart s) ∨
    (s.spin < Config.watchdogTurns s.drvTrace ∧ spinTurn s = (txDrain s).withSpin (s.spin + 1)) := by
  unfold spinTurn
  split
  · exact .inl ⟨‹_›, by rw [watchdogReset, if_pos h]⟩
  · exact .inr ⟨by omega, rfl⟩

/-- The drivers' history is not touched by a `TxDrain`. -/
@[simp] theorem txDrain_drvTrace (s : State) : (txDrain s).drvTrace = s.drvTrace := by
  unfold txDrain
  split <;> rfl

/-- With `tx` empty a `TxDrain` does nothing (20_memory.md R59). -/
theorem txDrain_empty {s : State} (h : s.tx.occ = 0) : txDrain s = s := by
  rw [txDrain, Ring.pop_empty h]

/-- A restart leaves what 10_state.md R43 says. -/
theorem restart_atReset (s : State) : (restart s).AtReset := by
  simp [State.AtReset, restart, State.reset, Parser.reset, Ring.reset]

/-- A restart under legal parameters establishes the invariant, whatever was there before. -/
theorem restart_inv {s : State} (h : s.params.ok = true) : (restart s).Inv := by
  have hp := Params.ok_iff.1 h
  refine ⟨h, Ring.reset_wf (powerOfTwo_pos hp.1), Ring.reset_wf (powerOfTwo_pos hp.2.1), ?_, rfl, fun _ => rfl⟩
  simp only [restart]
  simp [parserOk, State.reset, Parser.reset, positionOk, Memory.wf, Memory.wfFrom, Memory.within]

end Sys2Proof.Machine
end

