-- ==== Sys2Proof/Tests/Slice0.lean ====
section
/-! SUPPORT. The model's own tests: expected values from spec/95_test_vectors.md (named in each comment) or worked by hand
from the rules; and, for every obligation with hypotheses, a concrete input that meets them. -/

set_option maxRecDepth 8000

namespace Sys2Proof.Tests
open Sys2Proof.Machine

/-! ## Well-formedness -/

/-- The one ill-formed shape: an I2C Write whose data bytes are not as many as its length byte says. -/
theorem test_wellFormed_refuses_short_i2cWrite : (Instr.i2cWrite 0x50 0 2 [0x11] 0).wellFormed = false := by decide
theorem test_wellFormed_refuses_long_i2cWrite : (Instr.i2cWrite 0x50 0 1 [0x11, 0x22] 0).wellFormed = false := by decide
theorem test_wellFormed_empty_i2cWrite : (Instr.i2cWrite 0x50 0 0 [] 0x57).wellFormed = true := by decide

/-! ## Decoding words written out from the spec's encodings (requests of 95_test_vectors.md sections 1 and 2) -/

/-- What the decoder reads from a whole frame, at the default parameters. -/
def reads (bs : List Byte) (i : Instr) : Prop := decode Params.default bs = .ok (i, [])

theorem test_decode_miscReset : reads [0x01, 0x01, 0x02] (.miscReset 0x02) := by unfold reads; decide
theorem test_decode_miscGetId : reads [0x01, 0x02, 0x03] (.miscGetId 0x03) := by unfold reads; decide
theorem test_decode_miscGetTemp : reads [0x01, 0x03, 0x04] (.miscGetTemp 0x04) := by unfold reads; decide
theorem test_decode_gpioConfig : reads [0x02, 0x01, 0x0D, 0x01, 0x11] (.gpioConfig 13 1 0x11) := by unfold reads; decide
theorem test_decode_gpioRead : reads [0x02, 0x02, 0x07, 0x0B] (.gpioRead 7 0x0B) := by unfold reads; decide
theorem test_decode_gpioWrite : reads [0x02, 0x03, 0x02, 0x00, 0x07] (.gpioWrite 2 0 0x07) := by unfold reads; decide
theorem test_decode_analogRead : reads [0x03, 0x02, 0x05, 0x0A] (.analogRead 5 0x0A) := by unfold reads; decide
theorem test_decode_analogReadAll : reads [0x03, 0x03, 0x06] (.analogReadAll 0x06) := by unfold reads; decide
theorem test_decode_i2cConfig : reads [0x04, 0x01, 0x01, 0x06] (.i2cConfig 1 0x06) := by unfold reads; decide
theorem test_decode_i2cRead : reads [0x04, 0x02, 0x50, 0x10, 0x02, 0x68] (.i2cRead 0x50 0x10 2 0x68) := by
  unfold reads; decide
theorem test_decode_i2cWrite : reads [0x04, 0x03, 0x50, 0x10, 0x03, 0xDE, 0xAD, 0xBE, 0xB3]
    (.i2cWrite 0x50 0x10 3 [0xDE, 0xAD, 0xBE] 0xB3) := by unfold reads; decide
theorem test_decode_servoConfig : reads [0x05, 0x01, 0x09, 0x05, 0xDC, 0xF0] (.servoConfig 9 1500 0xF0) := by
  unfold reads; decide
theorem test_decode_servoSet : reads [0x05, 0x02, 0x09, 0x07, 0xD0, 0xE7] (.servoSet 9 2000 0xE7) := by
  unfold reads; decide
theorem test_decode_counterConfig : reads [0x06, 0x01, 0x03, 0x03, 0x0D] (.counterConfig 3 3 0x0D) := by
  unfold reads; decide
theorem test_decode_counterRead : reads [0x06, 0x02, 0x03, 0x0B] (.counterRead 3 0x0B) := by unfold reads; decide

/-- Class tags 0, 7 and 255 are none (vector D1); Analog has no data tag 1 (D5); a frame that stops early (D7). -/
theorem test_decode_class0 : decode Params.default [0x00] = .error (.unknownClassTag 0x00) := by decide
theorem test_decode_class7 : decode Params.default [0x07] = .error (.unknownClassTag 0x07) := by decide
theorem test_decode_class255 : decode Params.default [0xFF] = .error (.unknownClassTag 0xFF) := by decide
theorem test_decode_analog_tag1 : decode Params.default [0x03, 0x01] = .error (.unknownDataTag .analog 0x01) := by decide
theorem test_decode_truncated : decode Params.default [0x04, 0x03, 0x50] = .error .truncated := by decide
theorem test_decode_nothing : decode Params.default [] = .error .truncated := by decide

/-- Words of the opcode table: `match` 0x0203 and 0x0102, and the first word with no row, 0x0104. -/
theorem test_tableWord_gpioWrite : decodeTableWord 16 0x0203 = some (.gpioWrite 0 0 0) := by decide
theorem test_tableWord_miscGetId : decodeTableWord 16 0x0102 = some (.miscGetId 0) := by decide
theorem test_tableWord_none : decodeTableWord 16 0x0104 = none := by decide

/-! ## Codec (vectors K1 to K12) -/

theorem test_K1_to_K6 : checksum [0x01, 0x01] = 0x02 ∧ checksum [0xFF, 0x01] = 0x00 ∧ checksum [0x80, 0x80] = 0x00 ∧
    checksum [0xFF, 0xFF, 0xFF] = 0xFD ∧ checksum [] = 0x00 ∧
    checksum [0x04, 0x03, 0x50, 0x10, 0x03, 0xDE, 0xAD, 0xBE] = 0xB3 := by decide
theorem test_K7 : verify [0x00] = .ok true := rfl
theorem test_K8 : verify [0x01] = .ok false := rfl
theorem test_K9 : verify [] = .error .verifyEmpty := rfl
theorem test_K10 : verify [0x02, 0x03, 0x0E, 0x00, 0x13] = .ok true := rfl
theorem test_K11 : verify [0x02, 0x03, 0x0C, 0x02, 0x13] = .ok true := rfl
theorem test_K12 : verify [0x02, 0x03, 0x0C, 0x01, 0x12] = .ok true := rfl
theorem test_S4 : verify [0x02, 0x03, 0x0E, 0x01, 0x13] = .ok false := rfl

/-! ## Byte transport (vectors T1 and T2, capacity 4) -/

/-- A buffer's pointers and occupancy, and the bytes held. -/
def view (r : Ring) : Nat × Nat × Nat × List Byte := (r.rd, r.wr, r.occ, r.bytes 4)

theorem test_T1_full : view (ringOf 4 [1, 2, 3, 4]) = (0, 0, 4, [1, 2, 3, 4]) := by decide
theorem test_T1_dropped : view (ringOf 4 [1, 2, 3, 4, 5, 6]) = (0, 0, 4, [1, 2, 3, 4]) := by decide
theorem test_T1_drop_answer : ((ringOf 4 [1, 2, 3, 4]).push 4 5).2 = false := by decide
theorem test_T1_pop : ((ringOf 4 [1, 2, 3, 4]).pop 4).map (fun x => (x.1, view x.2)) = some (1, 1, 0, 3, [2, 3, 4]) := by
  decide

/-- Vector T2 after its step 8: full and wrapped round. -/
def wrapped : Ring :=
  ((((⟨[(2, 0x0C)], 2, 3, 1⟩ : Ring).push 4 0x0D).1.push 4 0x0E).1.push 4 0x0F).1

theorem test_T2_wrapped : view wrapped = (2, 2, 4, [0x0C, 0x0D, 0x0E, 0x0F]) := by decide
theorem test_T2_full : (wrapped.push 4 0x10).2 = false := by decide
theorem test_T3 : Ring.reset.avail = false ∧ Ring.reset.pop 4 = none := by decide

/-! ## One step of every command (vectors M1 to N9)

`after i f` is what `f` says of the state after the step that runs `i`'s last byte from the reset state. The drivers'
answers are free values, so of a reply that carries one only its head and its length are tested. -/

/-- What a test says of the state after one step. -/
def afterStep (s : State) (f : State → Bool) : Bool :=
  match step s with
  | .next t => f t
  | .fault _ => false
  | .refused _ => false

/-- The same of the step that runs an instruction from the reset state. -/
def after (i : Instr) (f : State → Bool) : Bool := afterStep (placeInstr i State.reset) f

/-- The reply in `tx` and the driver calls made. -/
def replied (bs : List Byte) (cs : List DrvCall) (t : State) : Bool :=
  t.txBytes == bs && t.drvLog == cs && t.ps.top == .awaitingClassTag && t.rxBytes == []

/-- The head of the reply in `tx`, its length, and the number of driver calls. -/
def replyHead (bs : List Byte) (n calls : Nat) (t : State) : Bool :=
  t.txBytes.take 3 == bs && t.tx.occ == n && t.drvLog.length == calls && t.ps.top == .awaitingClassTag

/-- The reset state of a board whose identifier is 0x1234 (vector M3). -/
def board : State := { State.reset with params := { Params.default with boardId := 0x1234 } }

theorem test_M1 : after (.miscReset 0x02) (fun t => replied [1, 1, 1, 3] [] t && t.ps.halted) = true := by decide
theorem test_M2 : after (.miscReset 0x03) (fun t => replied [1, 1, 0, 2] [] t && !t.ps.halted) = true := by decide
theorem test_M3 : afterStep (placeInstr (.miscGetId 0x03) board) (replied [1, 2, 1, 0x12, 0x34, 0x4A] []) = true := by
  decide
theorem test_M5 : after (.miscGetId 0x00) (replied [1, 2, 0, 3] []) = true := by decide
theorem test_M6_head : after (.miscGetTemp 0x04) (replyHead [1, 3, 1] 6 1) = true := by decide
theorem test_M8 : after (.miscGetTemp 0x05) (replied [1, 3, 0, 4] []) = true := by decide

theorem test_G2 : after (.gpioConfig 2 7 0x0C) (replied [2, 1, 1, 4] [.gpioConfig 2 7]) = true := by decide
theorem test_G5 : after (.gpioConfig 13 8 0x18) (replied [2, 1, 0, 3] []) = true := by decide
theorem test_G7_head : after (.gpioRead 13 0x11) (replyHead [2, 2, 1] 5 1) = true := by decide
theorem test_G9 : after (.gpioRead 14 0x12) (replied [2, 2, 0, 4] []) = true := by decide
theorem test_G10 : after (.gpioWrite 13 1 0x13) (replied [2, 3, 1, 6] [.gpioWrite 13 1]) = true := by decide
theorem test_G13 : after (.gpioWrite 13 2 0x14) (replied [2, 3, 0, 5] []) = true := by decide

theorem test_A2_head : after (.analogRead 5 0x0A) (replyHead [3, 2, 1] 6 1) = true := by decide
theorem test_A3 : after (.analogRead 6 0x0B) (replied [3, 2, 0, 5] []) = true := by decide
theorem test_A5_head : after (.analogReadAll 0x06) (replyHead [3, 3, 1] 16 6) = true := by decide
theorem test_A6 : after (.analogReadAll 0x07) (replied [3, 3, 0, 6] []) = true := by decide

theorem test_I2 : after (.i2cConfig 1 0x06) (replied [4, 1, 1, 6] [.i2cConfig 1]) = true := by decide
theorem test_I3 : after (.i2cConfig 2 0x07) (replied [4, 1, 0, 5] []) = true := by decide
theorem test_I5 : after (.i2cRead 0x50 0 0 0x56) (replied [4, 2, 1, 7] [.i2cRead 0x50 0 0 []]) = true := by decide
theorem test_I7 : after (.i2cRead 0x50 0 9 0x5F) (replied [4, 2, 0, 6] []) = true := by decide
theorem test_I12 : after (.i2cWrite 0x50 0 8 [1, 2, 3, 4, 5, 6, 7, 8] 0x83)
    (replied [4, 3, 1, 8] [.i2cWrite 0x50 0 [1, 2, 3, 4, 5, 6, 7, 8]]) = true := by decide
theorem test_I9 : after (.i2cWrite 0x50 0x10 9 [1, 2, 3, 4, 5, 6, 7, 8, 9] 0x9D) (replied [4, 3, 0, 7] []) = true := by
  decide

theorem test_V1 : after (.servoConfig 9 1500 0xF0) (replied [5, 1, 1, 7] [.servoConfig 9 0x05DC]) = true := by decide
theorem test_V3 : after (.servoConfig 8 1500 0xEF) (replied [5, 1, 0, 6] []) = true := by decide
theorem test_V6 : after (.servoSet 2 0xFFFF 0x07) (replied [5, 2, 1, 8] [.servoSet 2 0xFFFF]) = true := by decide
theorem test_V8 : after (.servoSet 1 0 0x08) (replied [5, 2, 0, 7] []) = true := by decide

theorem test_N3 : after (.counterConfig 2 0 0x09) (replied [6, 1, 1, 8] [.counterConfig 2 0]) = true := by decide
theorem test_N4 : after (.counterConfig 2 4 0x0D) (replied [6, 1, 0, 7] []) = true := by decide
theorem test_N6_head : after (.counterRead 3 0x0B) (replyHead [6, 2, 1] 5 1) = true := by decide
theorem test_N8 : after (.counterRead 4 0x0C) (replied [6, 2, 0, 8] []) = true := by decide

/-- The range checks at both sides of every bound (40_dispatcher.md R125). -/
theorem test_valid_pins : [0, 1, 2, 13, 14, 255].map gpioPinOk = [false, false, true, true, false, false] ∧
    [0, 5, 6].map channelOk = [true, true, false] ∧
    [1, 2, 7, 8, 9, 10, 11].map servoPinOk = [false, true, true, false, true, true, false] ∧
    [1, 2, 3, 4].map counterPinOk = [false, true, true, false] := by decide
theorem test_valid_fields : [0, 1, 2].map isBit = [true, true, false] ∧
    [0x00, 0x07, 0x08].map (optionsOk 0x07) = [true, true, false] ∧
    [8, 9].map (fun n => valid Params.default (.i2cRead 0xFF 0xFF n 0)) = [true, false] ∧
    [8, 9].map (fun n => valid Params.default (.i2cWrite 0 0 n [] 0)) = [true, false] := by decide

/-- `withFetchWord` places a table word: the row GPIO.WRITE with zero operands and a zero checksum answers NOK. -/
theorem test_withFetchWord :
    afterStep (State.reset.withFetchWord 16 0x0203) (replied [2, 3, 0, 5] []) = true := by decide

/-! ## The decode step and the other events, one step each -/

/-- The reset state with bytes waiting in `rx`. -/
def fed (bs : List Byte) : State := { State.reset with rx := ringOf 64 bs }

/-- The reset state with events scheduled. -/
def scheduled (es : List Event) : State := { State.reset with schedule := es }

/-- A frame under way: `GPIO.WRITE 13, 1` without its checksum byte, which waits in `rx` (S2's trace). -/
def midWrite : State := placeInstr (.gpioWrite 13 1 0x13) State.reset

/-- The parser in a sub-machine, at a phase. -/
def within (c : Cls) (ph : Phase) (op : Byte) (idx : Nat) (a : Args) (cnt : Nat) (csum : Byte) : Parser :=
  { Parser.reset with top := .inSub c, phase := ph, op := op, idx := idx, args := a, cnt := cnt, csum := csum }

/-- The parser there, one byte waiting. -/
def waiting (ps : Parser) (b : Byte) : State := { fed [b] with ps := ps }

/-- The halted device. -/
def spinning : State := { State.reset with ps := { Parser.reset with halted := true } }

/-- Rows of S2's trace, and of I10's and I9's. -/
theorem test_S2_row1 : afterStep (fed [0x02]) (fun t => t.ps == within .gpio .dataTag 0 0 ⟨0, 0, 0⟩ 0 0x02) = true := by
  decide
theorem test_S2_row2 : afterStep (waiting (within .gpio .dataTag 0 0 ⟨0, 0, 0⟩ 0 0x02) 0x03)
    (fun t => t.ps == within .gpio .args 3 0 ⟨0, 0, 0⟩ 0 0x05) = true := by decide
theorem test_S2_row4 : afterStep (waiting (within .gpio .args 3 1 ⟨0x0D, 0, 0⟩ 0 0x12) 0x01)
    (fun t => t.ps == within .gpio .checksum 3 2 ⟨0x0D, 0x01, 0⟩ 0 0x13) = true := by decide
theorem test_I10_length : afterStep (waiting (within .i2c .args 3 2 ⟨0x50, 0x10, 0⟩ 0 0x67) 0x03)
    (fun t => t.ps == within .i2c .payload 3 3 ⟨0x50, 0x10, 3⟩ 0 0x6A) = true := by decide
theorem test_I11_length : afterStep (waiting (within .i2c .args 3 2 ⟨0x50, 0, 0⟩ 0 0x57) 0x00)
    (fun t => t.ps == within .i2c .checksum 3 3 ⟨0x50, 0, 0⟩ 0 0x57) = true := by decide
theorem test_I10_data : afterStep (waiting (within .i2c .payload 3 3 ⟨0x50, 0x10, 3⟩ 0 0x6A) 0xDE)
    (fun t => t.ps == { within .i2c .payload 3 3 ⟨0x50, 0x10, 3⟩ 1 0x48 with buf := [(0, 0xDE)] }) = true := by decide
theorem test_I9_ninth : afterStep (waiting (within .i2c .payload 3 3 ⟨0x50, 0x10, 9⟩ 8 0x94) 0x09)
    (fun t => t.ps == within .i2c .checksum 3 3 ⟨0x50, 0x10, 9⟩ 9 0x9D) = true := by decide
/-- Vectors D1 and D2: an unknown tag changes nothing but `rx`. -/
theorem test_D1 : afterStep (fed [0x07]) (fun t => t.ps == Parser.reset && t.rxBytes == []) = true := by decide
theorem test_D2 : afterStep (waiting (within .gpio .dataTag 0 0 ⟨0, 0, 0⟩ 0 0x02) 0x09)
    (fun t => t.ps == within .gpio .dataTag 0 0 ⟨0, 0, 0⟩ 0 0x02 && t.rxBytes == []) = true := by decide

/-- A partial frame (vector D7) is over and not clean; the reset state is both; a byte still to come is neither (R252). -/
theorem test_D7_over : runOver { State.reset with ps := within .i2c .args 3 1 ⟨0x50, 0, 0⟩ 0 0x57 } = true ∧
    runClean { State.reset with ps := within .i2c .args 3 1 ⟨0x50, 0, 0⟩ 0 0x57 } = false ∧ runClean State.reset = true ∧
    runOver (scheduled [.irq (.rxArrive 1)]) = false := by decide

/-- Program P5: the spin decodes nothing, still receives, and ends with the watchdog. -/
theorem test_P5_spin : afterStep { spinning with rx := ringOf 64 [0x02], schedule := [.decode []] }
    (fun t => t == { spinning with rx := ringOf 64 [0x02] }) = true := by decide
theorem test_P5_watchdog :
    afterStep { spinning with rx := ringOf 64 [0x02], wireOut := [1], schedule := [.watchdogReset] }
      (fun t => t == { State.reset with wireOut := [1], drvTrace := [.restart] }) = true := by decide
theorem test_P5_receives : afterStep { spinning with schedule := [.irq (.rxArrive 0xAA)] }
    (fun t => t == { spinning with rx := ringOf 64 [0xAA] }) = true := by decide
/-- The spin ends: whatever the watchdog's wait, a spin that has lasted it is restarted by the next turn (R214). -/
theorem test_spin_ends : step { spinning with spin := Config.watchdogTurns [] } =
    .next { State.reset with drvTrace := [.restart] } := by
  rw [step_ok (show Params.default.ok = true by decide)]
  simp [nextEvent, unscheduled, spinning, State.reset, Parser.reset, spinTurn, watchdogReset, restart]
/-- With nothing scheduled and `rx` empty, `tx` drains (95_test_vectors.md, the vectors' schedule). -/
theorem test_drains : afterStep { State.reset with tx := ringOf 64 [1, 3] }
    (fun t => t.wireOut == [1] && t.txBytes == [3]) = true := by decide
/-- Interrupts inside a Decode: a `TxDrain` at the second point takes the first byte of the reply (20_memory.md R66). -/
theorem test_interrupts_inside : afterStep { placeInstr (.miscReset 0x02) State.reset with
    schedule := [.decode [[.rxArrive 0xAA], [.txDrain]]] }
    (fun t => t.wireOut == [1] && t.txBytes == [1, 1, 3] && t.rxBytes == [0xAA] && t.ps.halted && t.slots == []) = true := by
  decide

/-! ## Witnesses: for each obligation with hypotheses, an input that meets them all, at boundary values -/

theorem witness_DecodeOfEncodeIsInstruction : Params.default.ok = true ∧
    (Instr.i2cWrite 0 0 0 [] 0).wellFormed = true ∧
    (Instr.i2cWrite 0 0 255 (List.replicate 255 7) 0).wellFormed = true := by decide
theorem witness_DecodedBytesAreTheEncoding :
    decode Params.default [0x04, 0x03, 0x50, 0x00, 0x00, 0x57, 0x01] = .ok (.i2cWrite 0x50 0 0 [] 0x57, [0x01]) := by decide
theorem witness_RequestLengths : (Instr.i2cWrite 0 0 1 [7] 0).wellFormed = true ∧ (Instr.miscReset 2).wellFormed = true := by
  decide
/-- The first byte of a frame and its checksum byte, the empty body's too. -/
theorem witness_SingleByteCorruptionDetected : ([0x01, 0x01] ++ [checksum [0x01, 0x01]])[0]? = some (0x01 : Byte) ∧
    ([0x01, 0x01] ++ [checksum [0x01, 0x01]])[2]? = some (0x02 : Byte) ∧ ([] ++ [checksum []])[0]? = some (0x00 : Byte) ∧
    (1 : Byte) ≠ 0 ∧ (255 : Byte) ≠ 0 := by decide
theorem witness_CompensatingChangesUndetected : (1 : Byte) + 255 = 0 ∧ (0 : Byte) + 0 = 0 := by decide
/-- Nearly full, full, and of the least capacity. -/
theorem witness_PushStoresOrDrops : powerOfTwo 4 = true ∧ (ringOf 4 [1, 2, 3]).wf 4 = true ∧ (ringOf 4 [1, 2, 3]).occ < 4 ∧
    wrapped.wf 4 = true ∧ ¬ wrapped.occ < 4 ∧ powerOfTwo 1 = true ∧ (ringOf 1 [5]).wf 1 = true ∧ ¬ (ringOf 1 [5]).occ < 1 := by
  decide
theorem witness_PopTakesOldest : powerOfTwo 4 = true ∧ wrapped.wf 4 = true ∧ 0 < wrapped.occ ∧
    Ring.reset.wf 4 = true ∧ Ring.reset.occ = 0 := by decide
theorem witness_RingIsBoundedList : powerOfTwo 1 = true ∧ powerOfTwo 64 = true := by decide
theorem witness_RingSaturates : powerOfTwo 4 = true ∧ (⟨[(2, 0x0C)], 2, 2, 0⟩ : Ring).wf 4 = true ∧
    (⟨[(2, 0x0C)], 2, 2, 0⟩ : Ring).occ = 0 ∧ 4 < ([1, 2, 3, 4, 5] : List Byte).length := by decide

theorem witness_PowerOnResetRestarts : (scheduled [.powerOnReset]).params.ok = true ∧
    (scheduled [.powerOnReset]).schedule = .powerOnReset :: [] := by decide
theorem witness_WatchdogResetOnlyWhenHalted :
    { spinning with schedule := [.watchdogReset] }.params.ok = true ∧
    { spinning with schedule := [.watchdogReset] }.schedule = .watchdogReset :: [] ∧ spinning.ps.halted = true ∧
    (scheduled [.watchdogReset]).schedule = .watchdogReset :: [] ∧ (scheduled [.watchdogReset]).ps.halted = false := by
  decide

/-- A halted state with an event scheduled and one with none: from both a restart comes at last. -/
theorem witness_WatchdogRestartsAtLast : spinning.params.ok = true ∧ spinning.ps.halted = true ∧
    { spinning with schedule := [.irq (.rxArrive 1)] }.ps.halted = true := by decide

/-- The invariant holds at reset, inside a frame, in the spin, and with every event scheduled; from each a step is a next
state. -/
theorem witness_Inv : State.reset.Inv ∧ midWrite.Inv ∧ spinning.Inv ∧
    (scheduled [.irq (.rxArrive 1), .irq .txDrain, .irq .peripheral, .decode [[.txDrain]], .watchdogReset, .powerOnReset]).Inv := by
  unfold State.Inv; decide
theorem witness_EveryStepKeepsInv : midWrite.Inv ∧ ∃ t, step midWrite = .next t :=
  ⟨witness_Inv.2.1, _, rfl⟩
theorem witness_NoInputFaults : spinning.Inv := witness_Inv.2.2.1
theorem witness_EveryStepKeepsRunningChecksum : midWrite.Inv ∧ midWrite.SumInv ∧ ∃ t, step midWrite = .next t :=
  ⟨witness_Inv.2.1, fun _ => by decide, _, rfl⟩
theorem witness_NoStepChangesParameters : ∃ t, step midWrite = .next t := ⟨_, rfl⟩
theorem witness_RecordsOnlyGrow : ∃ t, step { midWrite with schedule := [.decode [[.txDrain]]] } = .next t := ⟨_, rfl⟩
theorem witness_OnlyMiscResetHalts : ∃ t, step (placeInstr (.miscReset 0x02) State.reset) = .next t ∧
    (placeInstr (.miscReset 0x02) State.reset).ps.halted = false ∧ t.ps.halted = true := ⟨_, rfl, by decide⟩
theorem witness_DriverCallsOnlyOnGoodFrames : ∃ t, step midWrite = .next t ∧ t.drvLog ≠ midWrite.drvLog :=
  ⟨_, rfl, by decide⟩
theorem witness_InterruptsInsideDecodeLeaveParser :
    (∃ t, step { midWrite with schedule := .decode [[.rxArrive 1], [.txDrain, .peripheral]] :: [] } = .next t) ∧
    ∃ u, step { midWrite with schedule := .decode [] :: [] } = .next u := ⟨⟨_, rfl⟩, _, rfl⟩

theorem witness_InterruptEventsTouchTheirOwn : ∀ e ∈ [Irq.rxArrive 0xFF, .txDrain, .peripheral],
    (scheduled [.irq e]).params.ok = true ∧ (scheduled [.irq e]).schedule = .irq e :: [] := by decide

/-- A device with the least receive capacity, its one position full. -/
def fullRx : State :=
  { State.reset with params := { Params.default with rxCap := 1 }, rx := ringOf 1 [7], schedule := [.irq (.rxArrive 9)] }

theorem witness_RxArriveStoresOrLoses : fullRx.Inv ∧ fullRx.schedule = .irq (.rxArrive 9) :: [] ∧
    fullRx.rx.occ = fullRx.params.rxCap ∧
    { fullRx with rx := Ring.reset }.Inv ∧ { fullRx with rx := Ring.reset }.rx.occ < fullRx.params.rxCap := by
  unfold State.Inv; decide

/-- The reset state with bytes waiting in `tx`. -/
def replying (bs : List Byte) (es : List Event) : State := { State.reset with tx := ringOf 64 bs, schedule := es }

theorem witness_TxDrainSendsOldest : (replying [1, 3] [.irq .txDrain]).Inv ∧
    (replying [1, 3] [.irq .txDrain]).schedule = .irq .txDrain :: [] ∧
    (replying [1, 3] [.irq .txDrain]).txBytes = 1 :: [3] ∧ (replying [] [.irq .txDrain]).txBytes = [] := by
  unfold State.Inv; decide
/-- One input for each clause; the third with a byte in `tx` and with none. -/
theorem witness_MainLoopIdlesWhenHaltedOrEmpty : spinning.Inv ∧ spinning.ps.halted = true ∧ spinning.schedule = [] ∧
    (scheduled [.decode [[.rxArrive 1]]]).Inv ∧ (scheduled [.decode [[.rxArrive 1]]]).rx.occ = 0 ∧
    (scheduled [.decode [[.rxArrive 1]]]).schedule = .decode [[.rxArrive 1]] :: [] ∧
    State.reset.Inv ∧ State.reset.AtRest ∧ (replying [1, 3] []).Inv ∧ (replying [1, 3] []).schedule = [] ∧
    (replying [1, 3] []).rx.occ = 0 ∧ (replying [1, 3] []).ps.halted = false ∧
    (replying [1, 3] []).txBytes = 1 :: [3] := by
  unfold State.Inv State.AtRest; decide

/-- The state that waits with `b` is about to pop it. -/
theorem pops_waiting (ps : Parser) (b : Byte) (h : ps.halted = false) :
    (waiting ps b).pops b { ringOf 64 [b] with rd := 1, occ := 0 } := by
  refine ⟨show Params.default.ok = true by decide, rfl, rfl, h, ?_⟩
  simp [waiting, fed, State.reset, Params.default, ringOf, Ring.push, Ring.pop, Ring.reset, Ring.mask, Memory.write]
  split <;> simp_all [Memory.read]

theorem witness_KnownClassTagOpensFrame : (waiting Parser.reset 6).pops 6 { ringOf 64 [6] with rd := 1, occ := 0 } ∧
    (waiting Parser.reset 6).ps.top = .awaitingClassTag ∧ (6 : Byte) = Cls.counter.tag :=
  ⟨pops_waiting _ _ rfl, rfl, rfl⟩
/-- The unknown tags next to the known ones, and the last. -/
theorem witness_UnknownClassTagDiscarded : ∀ b : Byte, b = 0 ∨ b = 7 ∨ b = 255 →
    (waiting Parser.reset b).pops b { ringOf 64 [b] with rd := 1, occ := 0 } ∧
    (waiting Parser.reset b).ps.top = .awaitingClassTag ∧ (b.toNat = 0 ∨ 7 ≤ b.toNat) := by
  rintro b (rfl | rfl | rfl) <;> exact ⟨pops_waiting _ _ rfl, rfl, by decide⟩

/-- Inside the sub-machine of `c`, waiting for a data tag, with `b` in `rx`. -/
def atDataTag (c : Cls) (b : Byte) : State := waiting (within c .dataTag 0 0 ⟨0, 0, 0⟩ 0 c.tag) b

/-- A command with no arguments and one with arguments. -/
theorem witness_KnownDataTagSelectsCommand : ∀ m ∈ [Cmd.miscReset, .gpioWrite],
    (atDataTag m.cls (m.tag Params.default)).pops (m.tag Params.default)
      { ringOf 64 [m.tag Params.default] with rd := 1, occ := 0 } ∧
    (atDataTag m.cls (m.tag Params.default)).ps.top = .inSub m.cls ∧
    (atDataTag m.cls (m.tag Params.default)).ps.phase = .dataTag ∧
    (atDataTag m.cls (m.tag Params.default)).params = Params.default := by
  intro m _; exact ⟨pops_waiting _ _ rfl, rfl, rfl, rfl⟩
theorem witness_UnknownDataTagDiscarded : (atDataTag .analog 1).pops 1 { ringOf 64 [1] with rd := 1, occ := 0 } ∧
    (atDataTag .analog 1).ps.top = .inSub .analog ∧ (atDataTag .analog 1).ps.phase = .dataTag ∧
    ∀ m : Cmd, m.cls = .analog → m.tag (atDataTag .analog 1).params ≠ 1 :=
  ⟨pops_waiting _ _ rfl, rfl, rfl, by intro m hm; cases m <;> revert hm <;> decide⟩

/-- Inside the frame of `m`, argument `i` next, with `b` in `rx`. -/
def atArg (m : Cmd) (i : Nat) (b : Byte) : State :=
  waiting (within m.cls .args (m.tag Params.default) i ⟨0, 0, 0⟩ 0 0) b

/-- Each clause: an argument that is not the last; the length byte of an I2C Write, 1 and 0; the last of another. -/
theorem witness_ArgumentByteStored : ∀ x ∈ [(Cmd.i2cWrite, 1, (9 : Byte)), (.i2cWrite, 2, 1), (.i2cWrite, 2, 0), (.gpioRead, 0, 9)],
    (atArg x.1 x.2.1 x.2.2).pops x.2.2 { ringOf 64 [x.2.2] with rd := 1, occ := 0 } ∧
    (atArg x.1 x.2.1 x.2.2).ps.top = .inSub x.1.cls ∧ (atArg x.1 x.2.1 x.2.2).ps.phase = .args ∧
    (atArg x.1 x.2.1 x.2.2).ps.op = x.1.tag (atArg x.1 x.2.1 x.2.2).params ∧
    (atArg x.1 x.2.1 x.2.2).ps.idx < x.1.nfix := by
  intro x hx
  exact ⟨pops_waiting _ _ rfl, rfl, rfl, rfl, by revert x; decide⟩

/-- Inside an I2C Write of `n` data bytes, data byte `k` next, 5 in `rx`. -/
def atData (n : Byte) (k : Nat) : State := waiting (within .i2c .payload 3 3 ⟨0, 0, n⟩ k 0) 5

/-- The eighth data byte (the last stored) and the ninth (not stored); before the last declared one and at it. -/
theorem witness_DataByteStoredWhileRoom : ∀ k ∈ [7, 8],
    (atData 9 k).pops 5 { ringOf 64 [5] with rd := 1, occ := 0 } ∧ (atData 9 k).ps.top = .inSub .i2c ∧
    (atData 9 k).ps.phase = .payload ∧ (atData 9 k).ps.op = Cmd.tag (atData 9 k).params .i2cWrite ∧
    (atData 9 k).ps.cnt < (atData 9 k).ps.args.a2.toNat ∧ Memory.wf (atData 9 k).ps.buf = true := by
  intro k hk
  exact ⟨pops_waiting _ _ rfl, rfl, rfl, rfl, by revert k; decide, rfl⟩
/-- `midWrite` when the environment has scheduled the Decode of its last byte, an interrupt event at each of its points, at
its end and one Decode behind it. -/
def midWriteScheduled : State :=
  { midWrite with schedule := [.decode [[.rxArrive 1], [.txDrain], [.peripheral], [], [], [.rxArrive 2]], .decode []] }

/-- The first clause with nothing scheduled and with a scheduled Decode that carries interrupt events, a byte in `tx` for
its transmit event; the second away from
the last byte of a frame, awaiting a class tag and inside a sub-machine. -/
theorem witness_TerminalStepRunsTheInstruction :
    (∃ r, midWrite.popsInto 0x13 { midWrite with rx := r }) ∧
    (∃ r sl es, sl ≠ [] ∧ midWriteScheduled.popsInto 0x13 { midWriteScheduled with rx := r, schedule := es, slots := sl }) ∧
    midWrite.ps.top = .inSub Cmd.gpioWrite.cls ∧ midWrite.ps.phase = .checksum ∧
    midWrite.ps.op = Cmd.tag midWrite.params .gpioWrite ∧ midWriteScheduled.ps = midWrite.ps ∧
    (ringOf 64 [7]).wf midWriteScheduled.params.txCap = true ∧
    [Irq.rxArrive 1, .txDrain, .peripheral, .rxArrive 2].count .txDrain ≤
      { midWriteScheduled with tx := ringOf 64 [7] }.txBytes.length ∧
    (waiting Parser.reset 6).pops 6 { ringOf 64 [6] with rd := 1, occ := 0 } ∧
    (waiting Parser.reset 6).ps.top = .awaitingClassTag ∧ (∃ t, step (waiting Parser.reset 6) = .next t) ∧
    (atData 9 8).pops 5 { ringOf 64 [5] with rd := 1, occ := 0 } ∧ (atData 9 8).ps.phase ≠ .checksum ∧
    ∃ t, step (atData 9 8) = .next t :=
  ⟨⟨_, by decide, by decide, _, rfl, .inl ⟨rfl, rfl⟩⟩,
   ⟨_, _, _, by decide, by decide, by decide, _, rfl, .inr ⟨[[.rxArrive 1], [.txDrain], [.peripheral], [], [], [.rxArrive 2]],
     [.decode []], rfl, rfl⟩⟩,
   rfl, rfl, rfl, rfl, by decide, by decide, pops_waiting _ _ rfl, rfl, ⟨_, rfl⟩, pops_waiting _ _ rfl, by decide, _, rfl⟩

/-- A scheduled Decode pops its byte and runs the instruction with its interrupt events inside and behind it: the byte that
arrives first and the one that arrives last wait in this order, the reply's first byte is not yet there when `tx` drains. -/
theorem test_scheduled_decode : afterStep midWriteScheduled (fun t =>
    t.drvLog == [.gpioWrite 13 1] && t.rxBytes == [1, 2] && t.wireOut == [] && t.txBytes == [2, 3, 1, 6] && t.schedule == [.decode []]) = true := by
  decide

/-- The oldest byte of `tx`, not the reply's, goes on the wire; while halted the same events happen and `rx` keeps its byte. -/
theorem test_scheduled_events : afterStep { midWriteScheduled with tx := ringOf 64 [7] } (fun t =>
    t.wireOut == [7] && t.txBytes == [2, 3, 1, 6]) = true ∧
    afterStep { spinning with rx := ringOf 64 [5], tx := ringOf 64 [7], schedule := midWriteScheduled.schedule } (fun t =>
      t.rxBytes == [5, 1, 2] && t.wireOut == [7] && t.drvTrace == [.peripheral] && t.ps == spinning.ps) = true := by decide

/-- A good frame and a bad one, each with a byte behind it. -/
theorem witness_FrameOnTheLineRunsItsInstruction : ∀ i ∈ [Instr.gpioWrite 13 1 0x13, .analogRead 0 0xFF],
    (fed (encode Params.default i ++ [0x01])).Inv ∧ (fed (encode Params.default i ++ [0x01])).schedule = [] ∧
    (fed (encode Params.default i ++ [0x01])).ps.top = .awaitingClassTag ∧ i.wellFormed = true ∧
    (fed (encode Params.default i ++ [0x01])).rxBytes = encode Params.default i ++ [0x01] := by
  unfold State.Inv; decide
/-- S1 and S2 as wholes: status 1 is reached, and an over-long I2C Write is well formed and not valid. -/
theorem witness_OneFrameInOneReplyOut : (fed [0x02, 0x03, 0x0D, 0x01, 0x13]).Inv ∧
    (fed [0x02, 0x03, 0x0D, 0x01, 0x13]).rxBytes = encode Params.default (.gpioWrite 13 1 0x13) ++ [] ∧
    (Instr.gpioWrite 13 1 0x13).lastByte = checksum ((Instr.gpioWrite 13 1 0x13).body Params.default) ∧
    valid Params.default (.gpioWrite 13 1 0x13) = true ∧
    valid Params.default (.i2cWrite 0 0 9 (List.replicate 9 0) 0) = false := by
  unfold State.Inv; decide

/-- Room for exactly one NOK reply: a device with `TX_CAP` 4 and nothing waiting. -/
def smallTx : State := { State.reset with params := { Params.default with txCap := 4 } }

/-- `smallTx` with three bytes waiting: a reply is cut after its first byte. -/
def nearlyFullTx : State := { smallTx with tx := ringOf 4 [7, 7, 7] }

theorem witness_NokReplyHasNoSideEffect : smallTx.canReply 4 ∧ smallTx.slots = [] ∧
    ¬((Instr.gpioWrite 13 1 0x13).lastByte = smallTx.ps.csum ∧ valid smallTx.params (.gpioWrite 13 1 0x13) = true) ∧
    ¬((Instr.analogRead 6 0).lastByte = smallTx.ps.csum ∧ valid smallTx.params (.analogRead 6 0) = true) := by
  unfold State.canReply; decide
theorem witness_ReplyCutWhenTxFull : nearlyFullTx.params.ok = true ∧ nearlyFullTx.tx.wf nearlyFullTx.params.txCap = true ∧
    nearlyFullTx.slots = [] ∧ nearlyFullTx.tx.occ = 3 := by decide
theorem witness_ReplyWholeUnderInterrupts : State.reset.params.ok = true ∧ State.reset.tx.wf State.reset.params.txCap = true ∧
    State.reset.tx.occ + (max 16 (4 + State.reset.params.i2cRdCap.toNat)) ≤ State.reset.params.txCap := by decide
theorem witness_CommandLeavesOtherRegisters : ∃ t, exec (.gpioWrite 13 1 0) smallTx = .next t := ⟨_, rfl⟩
theorem witness_CommandLeavesOtherMemory : (∃ t, exec (.gpioWrite 13 1 0) nearlyFullTx = .next t) ∧
    nearlyFullTx.params.ok = true ∧ nearlyFullTx.tx.wf nearlyFullTx.params.txCap = true ∧ nearlyFullTx.slots = [] :=
  ⟨⟨_, rfl⟩, by decide⟩

/-- The premise of the results of all fifteen commands, met with no room to spare: four bytes, sixteen bytes. The checksum
byte is free in each, so both of its clauses are met: `k = s.ps.csum` by 0, `k ≠ s.ps.csum` by 1. -/
theorem witness_results : smallTx.canReply 4 ∧
    { State.reset with params := { Params.default with txCap := 16 } }.canReply 16 ∧ State.reset.canReply 6 ∧
    State.reset.canReply 5 ∧ State.reset.canReply (4 + min (0 : Byte).toNat State.reset.params.i2cRdCap.toNat) ∧
    State.reset.canReply (4 + min (255 : Byte).toNat State.reset.params.i2cRdCap.toNat) ∧ State.reset.ps.csum = 0 ∧
    ([] : List Byte).length = (0 : Byte).toNat ∧ (List.replicate 9 (7 : Byte)).length = (9 : Byte).toNat := by
  unfold State.canReply; decide

end Sys2Proof.Tests
end

/-! The range checks of 40_dispatcher.md R125 as propositions: one lemma per check of Machine/Operands.lean, and the table
of the commands assembled from them. -/

namespace Sys2Proof.Machine

theorem gpioPinOk_iff (pin : Byte) : gpioPinOk pin = true ↔ 2 ≤ pin.toNat ∧ pin.toNat ≤ 13 := by
  simp [gpioPinOk]

theorem channelOk_iff (ch : Byte) : channelOk ch = true ↔ ch.toNat ≤ 5 := by
  simp [channelOk]

theorem servoPinOk_iff (pin : Byte) : servoPinOk pin = true ↔ pin.toNat ∈ [2, 3, 4, 5, 6, 7, 9, 10] := by
  simp only [servoPinOk, Bool.or_eq_true, Bool.and_eq_true, decide_eq_true_eq, beq_iff_eq, List.mem_cons,
    List.not_mem_nil, or_false]
  omega

theorem counterPinOk_iff (pin : Byte) : counterPinOk pin = true ↔ pin.toNat ∈ [2, 3] := by
  simp [counterPinOk]

theorem isBit_iff (v : Byte) : isBit v = true ↔ v.toNat ≤ 1 := by
  simp only [isBit, Bool.or_eq_true, beq_iff_eq]
  bv_omega

theorem optionsOk_iff (mask opt : Byte) : optionsOk mask opt = true ↔ opt &&& ~~~mask = 0 := by
  simp [optionsOk]

/-- The masked test of R89 and R91, bit by bit: a bit of the option byte survives `& ~mask` exactly when it is set outside
the mask. -/
theorem optionsOk_iff_subset (mask opt : Byte) :
    optionsOk mask opt = true ↔ ∀ j, opt.getLsbD j = true → mask.getLsbD j = true := by
  rw [optionsOk_iff]
  constructor
  · intro h j hj
    have hlt : j < 8 := BitVec.lt_of_getLsbD hj
    have hz : (opt &&& ~~~mask).getLsbD j = false := by simp [h]
    simpa [hj, hlt] using hz
  · intro h
    refine BitVec.eq_of_getLsbD_eq fun j hlt => ?_
    cases hj : opt.getLsbD j with
    | false => simp [hj]
    | true => simp [h j hj]

/-- Settles O40: every command's row is the conjunction of the checks of its operands. -/
theorem rangeChecks : Obligations.RangeChecks := by
  intro p i
  cases i with
  | miscReset | miscGetId | miscGetTemp | analogReadAll => simp [valid]
  | gpioConfig pin opt => simp only [valid, Bool.and_eq_true, gpioPinOk_iff, optionsOk_iff_subset, and_assoc]
  | gpioRead pin => exact gpioPinOk_iff pin
  | gpioWrite pin v => simp only [valid, Bool.and_eq_true, gpioPinOk_iff, isBit_iff, and_assoc]
  | analogRead ch => exact channelOk_iff ch
  | i2cConfig sel => exact isBit_iff sel
  | i2cRead | i2cWrite => simp [valid, i2cWrCap]
  | servoConfig pin | servoSet pin => exact servoPinOk_iff pin
  | counterConfig pin opt => simp only [valid, Bool.and_eq_true, counterPinOk_iff, optionsOk_iff_subset]
  | counterRead pin => exact counterPinOk_iff pin

end Sys2Proof.Machine

/-! What one step can do, said for the invariants: `Keeps` holds of every step whatever it is, `Accumulates` is what a byte
before the last does to the parser, `Terminates` what the last byte of a frame does, and `Steps` puts them together. -/

namespace Sys2Proof

/-! ## The tables -/

/-- The default parameters meet their constraints (00_scope.md R7). -/
theorem Params.default_ok : Params.default.ok = true := by decide

theorem Cmd.nfix_le (m : Cmd) : m.nfix ≤ 3 := by
  cases m <;> decide

theorem Cmd.hasData_iff {m : Cmd} : m.hasData = true ↔ m = .i2cWrite := by
  cases m <;> simp [Cmd.hasData]

/-- No data bytes are declared unless the command takes them and its length byte is not 0 (30_encoding.md R100). -/
theorem Cmd.dataLength_eq_zero {m : Cmd} {a : Args} (h : ¬(m.hasData = true ∧ 0 < a.a2.toNat)) :
    m.dataLength a = 0 := by
  unfold Cmd.dataLength
  split
  next hd => exact Nat.eq_zero_of_not_pos fun hpos => h ⟨hd, hpos⟩
  next => rfl

/-- An argument byte stored at its index follows those before it (30_encoding.md R82). -/
theorem Args.take_set {a : Args} {i : Nat} (b : Byte) (h : i < 3) :
    (a.set i b).toList.take (i + 1) = a.toList.take i ++ [b] := by
  match i, h with
  | 0, _ | 1, _ | 2, _ => rfl

end Sys2Proof

namespace Sys2Proof.Machine

/-! ## What every event keeps -/

/-- From `s` to `t` the parameters stayed, neither ring buffer lost its invariants (10_state.md R31), and the records of
R44 only grew. -/
structure Keeps (s t : State) : Prop where
  params : t.params = s.params
  rxWf : s.params.ok = true → s.rx.wf s.params.rxCap = true → t.rx.wf t.params.rxCap = true
  txWf : s.params.ok = true → s.tx.wf s.params.txCap = true → t.tx.wf t.params.txCap = true
  wireOut : s.wireOut <+: t.wireOut
  drvLog : s.drvLog <+: t.drvLog

theorem Keeps.refl (s : State) : Keeps s s :=
  ⟨rfl, fun _ h => h, fun _ h => h, List.prefix_rfl, List.prefix_rfl⟩

theorem Keeps.trans {s t u : State} (h : Keeps s t) (g : Keeps t u) : Keeps s u where
  params := g.params.trans h.params
  rxWf := fun hp hw => g.rxWf (h.params ▸ hp) (h.rxWf hp hw)
  txWf := fun hp hw => g.txWf (h.params ▸ hp) (h.txWf hp hw)
  wireOut := h.wireOut.trans g.wireOut
  drvLog := h.drvLog.trans g.drvLog

/-- `Keeps` says nothing of the parser state. -/
theorem Keeps.withPs {s t : State} (h : Keeps s t) (x : Parser) : Keeps s (t.withPs x) :=
  ⟨h.params, h.rxWf, h.txWf, h.wireOut, h.drvLog⟩

/-- Nor of the Reset spin. -/
theorem Keeps.withSpin {s t : State} (h : Keeps s t) (n : Nat) : Keeps s (t.withSpin n) :=
  ⟨h.params, h.rxWf, h.txWf, h.wireOut, h.drvLog⟩

theorem Runs.keeps {cs : List DrvCall} {s t : State} (h : Runs cs s t) : Keeps s t :=
  ⟨h.params, h.rxWf, h.txWf, h.wireOut, h.drvLog ▸ List.prefix_append _ _⟩

theorem Emits.keeps {f : List Byte} {s t : State} (h : Emits f s t) : Keeps s t :=
  ⟨h.params, h.rxWf, h.txWf, h.wireOut, h.drvLog ▸ List.prefix_rfl⟩

/-- A Decode that pops a byte, before it decodes it: the popped ring keeps its invariants (20_memory.md R53). -/
theorem keeps_popped {s : State} {b : Byte} {r : Ring} (es : List Event) (sl : List (List Irq))
    (hr : s.rx.pop s.params.rxCap = some (b, r)) : Keeps s (((s.withSchedule es).withSlots sl).withRx r) where
  params := rfl
  rxWf := fun hp hw => (Ring.pop_some (Params.ok_iff.1 hp).1 hw hr).2.1
  txWf := fun _ hw => hw
  wireOut := List.prefix_rfl
  drvLog := List.prefix_rfl

@[simp] theorem restart_ps (s : State) : (restart s).ps = Parser.reset := rfl

@[simp] theorem restart_drvLog (s : State) : (restart s).drvLog = s.drvLog :=
  s.driver_restart_drvLog

/-- The restart's buffers are fresh, and the records stay over it (60_exceptions.md R218, log 35). -/
theorem keeps_restart (s : State) (es : List Event) : Keeps s (restart (s.withSchedule es)) where
  params := rfl
  rxWf := fun hp _ => Ring.reset_wf (powerOfTwo_pos (Params.ok_iff.1 hp).1)
  txWf := fun hp _ => Ring.reset_wf (powerOfTwo_pos (Params.ok_iff.1 hp).2.1)
  wireOut := List.prefix_rfl
  drvLog := by simp

/-! ## The bytes before the last -/

/-- What the byte `b` makes of the parser state `ps` when it does not end a frame: one constructor per rule of
40_dispatcher.md R111 to R119. -/
inductive Accumulates (p : Params) (b : Byte) (ps : Parser) : Parser → Prop where
  | opens (c : Cls) (ht : ps.top = .awaitingClassTag) (hb : Cls.ofTag b = some c) :
      Accumulates p b ps { ps with top := .inSub c, phase := .dataTag, idx := 0, cnt := 0, csum := b }
  | skipsClassTag (ht : ps.top = .awaitingClassTag) (hb : Cls.ofTag b = none) : Accumulates p b ps ps
  | selects (c : Cls) (m : Cmd) (ht : ps.top = .inSub c) (hp : ps.phase = .dataTag) (hl : lookup p c b = some m) :
      Accumulates p b ps
        { ps with op := b, csum := ps.csum + b, phase := if m.nfix = 0 then .checksum else .args }
  | skipsDataTag (c : Cls) (ht : ps.top = .inSub c) (hp : ps.phase = .dataTag) (hl : lookup p c b = none) :
      Accumulates p b ps ps
  | argument (c : Cls) (m : Cmd) (ht : ps.top = .inSub c) (hp : ps.phase = .args) (hl : lookup p c ps.op = some m)
      (hi : ps.idx < m.nfix) :
      Accumulates p b ps
        { ps with
          args := ps.args.set ps.idx b, idx := ps.idx + 1, csum := ps.csum + b,
          phase := if ps.idx + 1 = m.nfix then afterArgs m (ps.args.set ps.idx b) else .args }
  | data (c : Cls) (ht : ps.top = .inSub c) (hp : ps.phase = .payload) (hl : lookup p c ps.op = some .i2cWrite)
      (hc : ps.cnt < ps.args.a2.toNat) :
      Accumulates p b ps
        { ps with
          buf := if ps.cnt < i2cWrCap then Memory.write ps.buf ps.cnt b else ps.buf,
          cnt := ps.cnt + 1, csum := ps.csum + b,
          phase := if ps.cnt + 1 = ps.args.a2.toNat then .checksum else .payload }

/-- The decode step makes of the parser what `Accumulates` says, and changes nothing else. -/
theorem Accumulates.decodeByte_eq {b : Byte} {s : State} {x : Parser} (h : Accumulates s.params b s.ps x) :
    decodeByte b s = .next (s.withPs x) := by
  unfold decodeByte
  cases h with
  | opens c ht hb => simp only [ht, stepAwait, hb]
  | skipsClassTag ht hb => simp only [ht, stepAwait, hb]; rfl
  | selects c m ht hp hl => simp only [ht, hp, stepDataTag, hl]
  | skipsDataTag c ht hp hl => simp only [ht, hp, stepDataTag, hl]; rfl
  | argument c m ht hp hl hi => simp only [ht, hp, stepArgs, hl, hi, if_true]
  | data c ht hp hl hc => simp only [ht, hp, stepPayload, hl, hc, and_self, if_true]

/-- At the phase Checksum the decode step is the accumulated instruction (40_dispatcher.md R120). -/
theorem decodeByte_checksum {b : Byte} {s : State} {c : Cls} {m : Cmd} (ht : s.ps.top = .inSub c)
    (hp : s.ps.phase = .checksum) (hl : lookup s.params c s.ps.op = some m) :
    decodeByte b s = exec (accumulated m s.ps b) s := by
  simp only [decodeByte, ht, hp, stepChecksum, hl]

/-- Everything a decode step that answers a next state can be: a byte before the last, or the terminal step. -/
theorem decodeByte_next {b : Byte} {s t : State} (h : decodeByte b s = .next t) :
    (∃ x, Accumulates s.params b s.ps x ∧ t = s.withPs x) ∨
    (∃ c m, s.ps.top = .inSub c ∧ s.ps.phase = .checksum ∧ lookup s.params c s.ps.op = some m ∧
      exec (accumulated m s.ps b) s = .next t) := by
  have before_last {x : Parser} (hx : Accumulates s.params b s.ps x) :
      ∃ x, Accumulates s.params b s.ps x ∧ t = s.withPs x :=
    ⟨x, hx, Host.Outcome.next.inj (h.symm.trans hx.decodeByte_eq)⟩
  rcases ht : s.ps.top with _ | c
  · cases hb : Cls.ofTag b with
    | some c => exact .inl (before_last (.opens c ht hb))
    | none => exact .inl (before_last (.skipsClassTag ht hb))
  · cases hp : s.ps.phase with
    | dataTag =>
      cases hl : lookup s.params c b with
      | some m => exact .inl (before_last (.selects c m ht hp hl))
      | none => exact .inl (before_last (.skipsDataTag c ht hp hl))
    | args =>
      cases hl : lookup s.params c s.ps.op with
      | none => simp [decodeByte, ht, hp, stepArgs, hl] at h
      | some m =>
        by_cases hi : s.ps.idx < m.nfix
        · exact .inl (before_last (.argument c m ht hp hl hi))
        · simp [decodeByte, ht, hp, stepArgs, hl, hi] at h
    | payload =>
      by_cases hc : lookup s.params c s.ps.op = some .i2cWrite ∧ s.ps.cnt < s.ps.args.a2.toNat
      · exact .inl (before_last (.data c ht hp hc.1 hc.2))
      · simp only [decodeByte, ht, hp, stepPayload, if_neg hc, reduceCtorEq] at h
    | checksum =>
      cases hl : lookup s.params c s.ps.op with
      | none => simp [decodeByte, ht, hp, stepChecksum, hl] at h
      | some m => exact .inr ⟨c, m, rfl, rfl, hl, (decodeByte_checksum ht hp hl).symm.trans h⟩

theorem Accumulates.halted {p : Params} {b : Byte} {ps x : Parser} (h : Accumulates p b ps x) :
    x.halted = ps.halted := by
  cases h <;> rfl

/-! ## The last byte -/

/-- The parser state after the terminal step of `i` (40_dispatcher.md R121): it awaits a class tag, and a Misc Reset with a
good checksum halts (41_misc.md R140). -/
def Parser.afterTerminal (i : Instr) (ps : Parser) : Parser :=
  { ps with
    top := .awaitingClassTag,
    halted := ps.halted || decide (i.cmd = .miscReset ∧ i.lastByte = ps.csum) }

/-- What the terminal step of `i` does between `s` and `t`, interrupt events aside. -/
structure Terminates (i : Instr) (s t : State) : Prop where
  keeps : Keeps s t
  ps : t.ps = s.ps.afterTerminal i
  spin : t.spin = s.spin
  calls : t.drvLog ≠ s.drvLog → i.lastByte = s.ps.csum ∧ valid s.params i = true

/-- The range check of a Misc Reset holds of itself: it has no argument (40_dispatcher.md R125). -/
theorem valid_miscReset {i : Instr} (p : Params) (h : i.cmd = .miscReset) : valid p i = true := by
  cases i <;> simp_all [valid, Instr.cmd]

/-- Everything a command can do. -/
theorem exec_terminates {i : Instr} {s t : State} (h : exec i s = .next t) : Terminates i s t := by
  by_cases hg : i.lastByte = s.ps.csum ∧ valid s.params i = true
  · obtain ⟨data, s', cs, ok⟩ := exec_ok hg
    obtain ⟨e, he, hreply⟩ := replyOk_spec i.cmd data s'
    have hkeeps : Keeps s e := ok.runs.keeps.trans he.keeps
    have hspin : e.spin = s.spin := he.spin.trans ok.runs.spin
    have ht := h.symm.trans ok.answer
    rw [hreply, ok.runs.ps, Host.Outcome.next.injEq] at ht
    subst ht
    by_cases hm : i.cmd = .miscReset
    · rw [if_pos hm]
      exact ⟨(hkeeps.withPs _).withPs _, by simp [halt, Parser.afterTerminal, hm, hg.1], hspin, fun _ => hg⟩
    · rw [if_neg hm]
      exact ⟨hkeeps.withPs _, by simp [Parser.afterTerminal, hm], hspin, fun _ => hg⟩
  · obtain ⟨e, he, hreply⟩ := replyNok_spec i.cmd s
    rw [exec_nok hg, hreply, Host.Outcome.next.injEq] at h
    subst h
    have hno : ¬(i.cmd = .miscReset ∧ i.lastByte = s.ps.csum) := fun hr => hg ⟨hr.2, valid_miscReset _ hr.1⟩
    exact ⟨he.keeps.withPs _, by simp [Parser.afterTerminal, hno], he.spin, fun hc => absurd he.drvLog hc⟩

/-! ## A turn of the main loop -/

/-- The rest of a Decode after its byte (40_dispatcher.md R129). -/
theorem andThen_next {a : Answer} {f : State → State} {t : State} (h : andThen a f = .next t) :
    ∃ v, a = .next v ∧ t = f v := by
  cases a with
  | next v => exact ⟨v, rfl, by cases h; rfl⟩
  | fault | refused => cases h

/-- Halted, or with no byte waiting, a turn of the main loop is its interrupt events (41_misc.md R140, R129). -/
theorem mainLoop_idle {s : State} (h : s.ps.halted = true ∨ s.rx.pop s.params.rxCap = none) :
    mainLoop s = .next (endDecode s) := by
  unfold mainLoop
  obtain hh | hr := h
  · rw [if_pos hh]
  · rw [hr]; exact ite_self _

/-- Otherwise it decodes the oldest byte of `rx`. -/
theorem mainLoop_pop {s : State} {b : Byte} {r : Ring} (hh : s.ps.halted = false)
    (hr : s.rx.pop s.params.rxCap = some (b, r)) :
    mainLoop s = andThen (decodeByte b (s.withRx r)) endDecode := by
  simp only [mainLoop, hh, hr, Bool.false_eq_true, if_false]

/-- A state either idles in the main loop or pops a byte. -/
theorem idle_or_pops (s : State) : (s.ps.halted = true ∨ s.rx.pop s.params.rxCap = none) ∨
    (s.ps.halted = false ∧ ∃ b r, s.rx.pop s.params.rxCap = some (b, r)) := by
  cases hh : s.ps.halted with
  | true => exact .inl (.inl rfl)
  | false =>
    cases hr : s.rx.pop s.params.rxCap with
    | none => exact .inl (.inr rfl)
    | some br => exact .inr ⟨rfl, br.1, br.2, rfl⟩

/-! ## A step -/

/-- From `s` to `t` only interrupt events happened, or nothing: no byte was decoded and the device did not restart. -/
structure Idles (s t : State) : Prop where
  keeps : Keeps s t
  ps : t.ps = s.ps
  drvLog : t.drvLog = s.drvLog
  slots : s.slots = [] → t.slots = []
  spin : s.ps.halted = false → t.spin = s.spin

/-- Interrupt events after the schedule was advanced. -/
theorem Runs.idles {s t : State} {es : List Event} (h : Runs [] (s.withSchedule es) t)
    (hs : s.slots = [] → t.slots = []) : Idles s t :=
  ⟨⟨h.params, h.rxWf, h.txWf, h.wireOut, by simp [h.drvLog]⟩, h.ps, by simp [h.drvLog], hs, fun _ => h.spin⟩

theorem txDrain_slots (s : State) : (txDrain s).slots = s.slots :=
  runIrq_slots .txDrain s

/-- The three ways a step can go: it leaves the parser alone, it restarts the device, or it decodes a byte `b`, whose
Decode has the interrupt events `sl` and leaves the events `es` to come. -/
inductive Steps (s : State) : State → Prop where
  | idles {t : State} (h : Idles s t) : Steps s t
  | restarts (es : List Event) (hp : s.params.ok = true) : Steps s (restart (s.withSchedule es))
  | decodes {b : Byte} {r : Ring} {v : State} (es : List Event) (sl : List (List Irq)) (hh : s.ps.halted = false)
      (hr : s.rx.pop s.params.rxCap = some (b, r))
      (hv : decodeByte b (((s.withSchedule es).withSlots sl).withRx r) = .next v) : Steps s (endDecode v)

/-- A turn of the main loop idles or decodes. -/
theorem mainLoop_steps {s t : State} (es : List Event) (sl : List (List Irq))
    (h : mainLoop ((s.withSchedule es).withSlots sl) = .next t) : Steps s t := by
  obtain hidle | ⟨hh, b, r, hr⟩ := idle_or_pops ((s.withSchedule es).withSlots sl)
  · obtain rfl := Host.Outcome.next.inj ((mainLoop_idle hidle).symm.trans h)
    exact .idles (((withSlots_runs sl _).trans (endDecode_runs _)).idles fun _ => endDecode_slots _)
  · obtain ⟨v, hv, rfl⟩ := andThen_next ((mainLoop_pop hh hr).symm.trans h)
    exact .decodes es sl hh hr hv

/-- With nothing scheduled. -/
theorem unscheduled_steps {s t : State} (hp : s.params.ok = true) (h : unscheduled s = .next t) : Steps s t := by
  have hdrain : Runs [] (s.withSchedule s.schedule) (txDrain s) := txDrain_runs s
  have hslots : s.slots = [] → (txDrain s).slots = [] := fun hs => (txDrain_slots s).trans hs
  obtain ⟨hh, rfl⟩ | ⟨-, -, h⟩ | ⟨-, -, rfl⟩ := unscheduled_cases h
  · obtain ⟨-, he⟩ | ⟨-, he⟩ := spinTurn_cases hh <;> rw [he]
    · exact .restarts s.schedule hp
    · have hidles := hdrain.idles hslots
      exact .idles ⟨hidles.keeps.withSpin _, hidles.ps, hidles.drvLog, hidles.slots, fun hn => by simp [hh] at hn⟩
  · exact mainLoop_steps s.schedule s.slots h
  · exact .idles (hdrain.idles hslots)

/-- Everything a step can do. -/
theorem step_steps {s t : State} (h : step s = .next t) : Steps s t := by
  obtain ⟨hp, ⟨-, h⟩ | ⟨e, es, -, rfl⟩ | ⟨sl, es, -, h⟩ | ⟨es, -, rfl⟩ | ⟨es, -, rfl⟩⟩ := step_cases h
  · exact unscheduled_steps hp h
  · exact .idles ((runIrq_runs e _).idles fun hs => (runIrq_slots e _).trans hs)
  · exact mainLoop_steps es sl h
  · unfold watchdogReset
    split
    · exact .restarts es hp
    · exact .idles ((Runs.refl _).idles fun hs => hs)
  · exact .restarts es hp

/-- A decode step keeps what every event keeps. -/
theorem decodeByte_keeps {b : Byte} {s t : State} (h : decodeByte b s = .next t) : Keeps s t := by
  obtain ⟨x, -, rfl⟩ | ⟨c, m, -, -, -, he⟩ := decodeByte_next h
  · exact (Keeps.refl s).withPs x
  · exact (exec_terminates he).keeps

/-- Every step keeps the parameters, the ring buffers' invariants and the records. -/
theorem step_keeps {s t : State} (h : step s = .next t) : Keeps s t := by
  cases step_steps h with
  | idles h => exact h.keeps
  | restarts es => exact keeps_restart s es
  | decodes es sl hh hr hv =>
    exact (keeps_popped es sl hr).trans ((decodeByte_keeps hv).trans (endDecode_runs _).keeps)

/-- Settles O22: the parameters are among what every step keeps. -/
theorem noStepChangesParameters : Obligations.NoStepChangesParameters :=
  fun _ _ h => (step_keeps h).params

/-- Settles O23: so are the records, which the step only appends to. -/
theorem recordsOnlyGrow : Obligations.RecordsOnlyGrow :=
  fun _ _ h => ⟨(step_keeps h).wireOut, (step_keeps h).drvLog⟩

/-! ## Reset -/

/-- Settles O15: every clause is a field of `State.reset`. -/
theorem resetLeavesR43 : Obligations.ResetLeavesR43 :=
  ⟨⟨rfl, rfl, rfl, rfl, rfl, rfl, rfl, rfl⟩, rfl, rfl, rfl, rfl, rfl, Params.default_ok⟩

/-- Settles O16: `Inv` says nothing of the drivers' history, so the state after power-on has it as every restart does. -/
theorem resetMeetsInvariants : Obligations.ResetMeetsInvariants :=
  ⟨restart_inv (s := State.reset) Params.default_ok, trivial⟩

/-! ## What a step does to the parser state -/

/-- Settles O24: only the terminal step sets `halted`, and only for a Misc Reset whose last byte is the running checksum. -/
theorem onlyMiscResetHalts : Obligations.OnlyMiscResetHalts := by
  intro s t h hs ht
  cases step_steps h with
  | idles h => simp [h.ps, hs] at ht
  | restarts es => simp [Parser.reset] at ht
  | decodes es sl hh hr hv =>
    rw [(endDecode_runs _).ps] at ht
    obtain ⟨x, hx, rfl⟩ | ⟨c, m, htop, hphase, hl, he⟩ := decodeByte_next hv
    · have hhalted := hx.halted
      simp_all
    · rw [(exec_terminates he).ps] at ht
      obtain ⟨rfl, rfl⟩ : m = .miscReset ∧ _ = s.ps.csum := by
        simpa [Parser.afterTerminal, accumulated, hs] using ht
      obtain ⟨rfl, -⟩ := lookup_some hl
      exact ⟨htop, hphase, hl, _, hr⟩

/-- Settles O25: interrupt events, restarts and the bytes before the last leave the driver log, and so does a terminal step
that answers NOK. -/
theorem driverCallsOnlyOnGoodFrames : Obligations.DriverCallsOnlyOnGoodFrames := by
  intro s t h hne
  cases step_steps h with
  | idles h => exact absurd h.drvLog hne
  | restarts es => simp at hne
  | decodes es sl hh hr hv =>
    rw [(endDecode_runs _).drvLog, List.append_nil] at hne
    obtain ⟨x, -, rfl⟩ | ⟨c, m, htop, hphase, hl, he⟩ := decodeByte_next hv
    · simp at hne
    · obtain ⟨hk, hvalid⟩ := (exec_terminates he).calls hne
      obtain rfl : _ = s.ps.csum := by simpa [accumulated] using hk
      exact ⟨c, m, _, htop, hphase, hl, hr, hvalid, hh⟩

/-- What a decode step makes of the parser state depends on the parameters and that state alone. -/
theorem decodeByte_ps_unique {b : Byte} {s s' t t' : State} (hparams : s'.params = s.params) (hps : s'.ps = s.ps)
    (h : decodeByte b s = .next t) (h' : decodeByte b s' = .next t') : t.ps = t'.ps := by
  obtain ⟨x, hx, rfl⟩ | ⟨c, m, htop, hphase, hl, he⟩ := decodeByte_next h
  · rw [← hparams, ← hps] at hx
    obtain rfl := Host.Outcome.next.inj (hx.decodeByte_eq.symm.trans h')
    rfl
  · rw [decodeByte_checksum (hps ▸ htop) (hps ▸ hphase) (hparams ▸ hps ▸ hl)] at h'
    rw [(exec_terminates he).ps, (exec_terminates h').ps, hps]

/-- The interrupt events of a Decode do not reach the parser state (20_memory.md R66). -/
theorem mainLoop_ps_withSlots {s t u : State} {sl sl' : List (List Irq)} (h : mainLoop (s.withSlots sl) = .next t)
    (h' : mainLoop (s.withSlots sl') = .next u) : t.ps = u.ps := by
  obtain hidle | ⟨hh, b, r, hr⟩ := idle_or_pops s
  · obtain rfl := Host.Outcome.next.inj ((mainLoop_idle (s := s.withSlots sl) hidle).symm.trans h)
    obtain rfl := Host.Outcome.next.inj ((mainLoop_idle (s := s.withSlots sl') hidle).symm.trans h')
    rw [(endDecode_runs _).ps, (endDecode_runs _).ps]
    rfl
  · obtain ⟨v, hv, rfl⟩ := andThen_next ((mainLoop_pop (s := s.withSlots sl) hh hr).symm.trans h)
    obtain ⟨v', hv', rfl⟩ := andThen_next ((mainLoop_pop (s := s.withSlots sl') hh hr).symm.trans h')
    rw [(endDecode_runs _).ps, (endDecode_runs _).ps]
    exact decodeByte_ps_unique (s := (s.withSlots sl).withRx r) (s' := (s.withSlots sl').withRx r) rfl rfl hv hv'

/-- A Decode that the environment has scheduled is a turn of the main loop. -/
theorem step_decode {s : State} {sl : List (List Irq)} {es : List Event} (hp : s.params.ok = true)
    (hs : s.schedule = .decode sl :: es) : step s = mainLoop ((s.withSchedule es).withSlots sl) := by
  rw [step_ok hp, nextEvent, hs]

/-- Settles O26: both steps are the same turn of the main loop but for the interrupt events it carries. -/
theorem interruptsInsideDecodeLeaveParser : Obligations.InterruptsInsideDecodeLeaveParser := by
  intro s es sl t u ht hu
  have hp : s.params.ok = true := (step_cases ht).1
  have hstep (sl) : step { s with schedule := .decode sl :: es } = mainLoop ((s.withSchedule es).withSlots sl) :=
    step_decode (s := { s with schedule := .decode sl :: es }) hp rfl
  rw [hstep] at ht hu
  exact mainLoop_ps_withSlots ht hu

/-! ## The invariant of the parser state -/

/-- The parts of the parser state's well-formedness. -/
theorem parserOk_iff {p : Params} {ps : Parser} : parserOk p ps = true ↔
    ps.idx ≤ 3 ∧ ps.cnt ≤ 255 ∧ Memory.wf ps.buf = true ∧ Memory.within i2cWrCap ps.buf = true ∧
      positionOk p ps = true ∧ (ps.halted = true → ps.top = .awaitingClassTag) := by
  cases hh : ps.halted <;> simp [parserOk, hh, and_assoc]

/-- Where the parser stands once the arguments `a` of `m` are in (40_dispatcher.md R117, R118): both counters agree. -/
theorem positionOk_afterArgs {p : Params} {c : Cls} {m : Cmd} {ps : Parser} (ht : ps.top = .inSub c)
    (hl : lookup p c ps.op = some m) (hi : ps.idx = m.nfix) (hc : ps.cnt = 0) (hp : ps.phase = afterArgs m ps.args) :
    positionOk p ps = true := by
  by_cases hd : m.hasData = true ∧ 0 < ps.args.a2.toNat
  · obtain rfl := Cmd.hasData_iff.1 hd.1
    simp [positionOk, ht, hp, afterArgs, hd, hl, hi, hc, Cmd.nfix]
  · simp [positionOk, ht, hp, afterArgs, hd, hl, hi, hc, Cmd.dataLength_eq_zero hd]

/-- A command without arguments has no data bytes, so that the checksum follows its tag (R113). -/
theorem afterArgs_of_nfix_zero {m : Cmd} (a : Args) (h : m.nfix = 0) : afterArgs m a = .checksum := by
  cases m <;> simp_all [Cmd.nfix, afterArgs, Cmd.hasData]

/-- A byte before the last keeps the parser state well formed. -/
theorem Accumulates.keeps_parserOk {p : Params} {b : Byte} {ps x : Parser} (h : Accumulates p b ps x)
    (hok : parserOk p ps = true) (hh : ps.halted = false) : parserOk p x = true := by
  obtain ⟨hidx, hcnt, hwf, hin, hpos, -⟩ := parserOk_iff.1 hok
  have running {t : Top} : ps.halted = true → t = .awaitingClassTag := by simp [hh]
  cases h with
  | opens c ht hb => exact parserOk_iff.2 ⟨by simp, by simp, hwf, hin, by simp [positionOk], running⟩
  | skipsClassTag | skipsDataTag => exact hok
  | selects c m ht hp hl =>
    obtain ⟨hi, hc⟩ : ps.idx = 0 ∧ ps.cnt = 0 := by simpa [positionOk, ht, hp] using hpos
    refine parserOk_iff.2 ⟨hidx, hcnt, hwf, hin, ?_, running⟩
    by_cases h0 : m.nfix = 0
    · exact positionOk_afterArgs ht hl (hi.trans h0.symm) hc (by simp [h0, afterArgs_of_nfix_zero])
    · simp [positionOk, ht, h0, hl, hi, hc, Nat.pos_of_ne_zero]
  | argument c m ht hp hl hi =>
    have hc : ps.cnt = 0 := by simpa [positionOk, ht, hp, hl, hi] using hpos
    have hle := m.nfix_le
    refine parserOk_iff.2 ⟨by simp only; omega, hcnt, hwf, hin, ?_, running⟩
    by_cases hlast : ps.idx + 1 = m.nfix
    · exact positionOk_afterArgs ht hl hlast hc (by simp [hlast])
    · have hlt : ps.idx + 1 < m.nfix := by omega
      simp [positionOk, ht, hlast, hl, hlt, hc]
  | data c ht hp hl hc =>
    obtain hi : ps.idx = 3 := by simpa [positionOk, ht, hp, hl, hc] using hpos
    have hlt := ps.args.a2.isLt
    refine parserOk_iff.2 ⟨hidx, by simp only; omega, ?_, ?_, ?_, running⟩
    · simp only
      split
      · exact Memory.write_wf _ _ hwf
      · exact hwf
    · simp only
      split
      next hroom => exact Memory.write_within _ hin hroom
      next => exact hin
    · by_cases hlast : ps.cnt + 1 = ps.args.a2.toNat
      · simp [positionOk, ht, hlast, hl, hi, Cmd.nfix, Cmd.dataLength, Cmd.hasData]
      · have hmore : ps.cnt + 1 < ps.args.a2.toNat := by omega
        simp [positionOk, ht, hlast, hl, hi, hmore]

/-- So does the last byte: no frame is in progress after it. -/
theorem parserOk_afterTerminal {p : Params} {ps : Parser} (i : Instr) (hok : parserOk p ps = true) :
    parserOk p (ps.afterTerminal i) = true := by
  obtain ⟨hidx, hcnt, hwf, hin, -, -⟩ := parserOk_iff.1 hok
  exact parserOk_iff.2 ⟨hidx, hcnt, hwf, hin, rfl, fun _ => rfl⟩

/-- A decode step keeps the parser state well formed and counts no turn of the Reset spin. -/
theorem decodeByte_parserOk {b : Byte} {s t : State} (h : decodeByte b s = .next t)
    (hok : parserOk s.params s.ps = true) (hh : s.ps.halted = false) :
    parserOk t.params t.ps = true ∧ t.spin = s.spin := by
  rw [(decodeByte_keeps h).params]
  obtain ⟨x, hx, rfl⟩ | ⟨c, m, -, -, -, he⟩ := decodeByte_next h
  · exact ⟨hx.keeps_parserOk hok hh, rfl⟩
  · rw [(exec_terminates he).ps]
    exact ⟨parserOk_afterTerminal _ hok, (exec_terminates he).spin⟩

/-- Settles O19: the ring buffers' part is `step_keeps`; the parser's follows the three ways a step can go. -/
theorem everyStepKeepsInv : Obligations.EveryStepKeepsInv := by
  intro s t ⟨hp, hrx, htx, hok, hslots, hspin⟩ h
  have hkeeps := step_keeps h
  have hpt : t.params.ok = true := hkeeps.params ▸ hp
  refine ⟨hpt, hkeeps.rxWf hp hrx, hkeeps.txWf hp htx, ?_⟩
  cases step_steps h with
  | idles h =>
    rw [h.ps, hkeeps.params]
    exact ⟨hok, h.slots hslots, fun hh => (h.spin hh).trans (hspin hh)⟩
  | restarts es =>
    obtain ⟨-, -, -, hok', hslots', hspin'⟩ := restart_inv (s := s.withSchedule es) hp
    exact ⟨hok', hslots', hspin'⟩
  | @decodes b r v es sl hh hr hv =>
    obtain ⟨hok', hspin'⟩ := decodeByte_parserOk hv hok hh
    have hend := endDecode_runs v
    rw [hend.ps, hend.params, hend.spin, hspin']
    exact ⟨hok', endDecode_slots _, fun _ => hspin hh⟩

/-! ## The running checksum -/

/-- The running checksum of a parser state: inside a frame, `csum` is the sum of the bytes kept (10_state.md R26). -/
def Parser.SumOk (ps : Parser) : Prop :=
  ∀ c, ps.top = .inSub c → ps.cnt ≤ i2cWrCap → ps.csum = checksum (frameSoFar c ps)

/-- The checksum invariant is one of the parser state. -/
theorem State.sumInv_iff {s : State} : s.SumInv ↔ s.ps.SumOk := by
  unfold State.SumInv Parser.SumOk
  cases s.ps.top <;> simp

/-- After the data tag a frame so far is its two tags, the arguments counted and the data bytes counted. -/
theorem frameSoFar_of_ne_dataTag {c : Cls} {ps : Parser} (h : ps.phase ≠ .dataTag) :
    frameSoFar c ps = [c.tag, ps.op] ++ ps.args.toList.take ps.idx ++ (List.range ps.cnt).map (Memory.read ps.buf) := by
  unfold frameSoFar
  cases hp : ps.phase with
  | dataTag => exact absurd hp h
  | args | payload | checksum => rfl

theorem afterArgs_ne_dataTag (m : Cmd) (a : Args) : afterArgs m a ≠ .dataTag := by
  unfold afterArgs
  split <;> simp

/-- A data byte stored at its count follows those before it. -/
theorem Memory.map_read_write_succ {m : Memory} (n : Nat) (b : Byte) (h : Memory.wf m = true) :
    (List.range (n + 1)).map (Memory.read (Memory.write m n b)) = (List.range n).map (Memory.read m) ++ [b] := by
  rw [List.range_succ, List.map_append]
  congr 1
  · exact List.map_congr_left fun a ha => Memory.read_write_other m b (List.mem_range.1 ha).ne
  · simp [h]

/-- A byte before the last keeps the sum: it joins the frame and the sum alike. -/
theorem Accumulates.keeps_sumOk {p : Params} {b : Byte} {ps x : Parser} (h : Accumulates p b ps x)
    (hok : parserOk p ps = true) (hsum : ps.SumOk) : x.SumOk := by
  obtain ⟨-, -, hwf, -, hpos, -⟩ := parserOk_iff.1 hok
  cases h with
  | opens c ht hb =>
    rintro c' ⟨⟩ -
    simp [frameSoFar, Cls.ofTag_some hb]
  | skipsClassTag | skipsDataTag => exact hsum
  | selects c m ht hp hl =>
    obtain ⟨hi, hc⟩ : ps.idx = 0 ∧ ps.cnt = 0 := by simpa [positionOk, ht, hp] using hpos
    intro c' htop hcap
    have hs := hsum c' htop hcap
    rw [frameSoFar_of_ne_dataTag (by simp only; split <;> simp)]
    simp [hs, frameSoFar, hp, hi, hc]
  | argument c m ht hp hl hi =>
    have hc : ps.cnt = 0 := by simpa [positionOk, ht, hp, hl, hi] using hpos
    have hle := m.nfix_le
    intro c' htop hcap
    have hs := hsum c' htop hcap
    rw [frameSoFar_of_ne_dataTag (by simp [hp])] at hs
    rw [frameSoFar_of_ne_dataTag (by simp only; split <;> simp [afterArgs_ne_dataTag])]
    simp only [hs, hc, Args.take_set b (show ps.idx < 3 by omega)]
    simp [BitVec.add_assoc]
  | data c ht hp hl hc =>
    intro c' htop hcap
    have hroom : ps.cnt < i2cWrCap := hcap
    have hs := hsum c' htop hroom.le
    rw [frameSoFar_of_ne_dataTag (by simp [hp])] at hs
    rw [frameSoFar_of_ne_dataTag (by simp only; split <;> simp)]
    simp only [hs, if_pos hroom, Memory.map_read_write_succ _ b hwf]
    simp [BitVec.add_assoc]

/-- Settles O21: interrupt events leave the parser state, restarts and terminal steps leave no frame in progress, and a byte
before the last is summed as it joins the frame. -/
theorem everyStepKeepsRunningChecksum : Obligations.EveryStepKeepsRunningChecksum := by
  intro s t ⟨_, _, _, hok, _, _⟩ hsum h
  rw [State.sumInv_iff] at hsum ⊢
  cases step_steps h with
  | idles h => exact h.ps ▸ hsum
  | restarts es => rintro c ⟨⟩
  | decodes es sl hh hr hv =>
    rw [(endDecode_runs _).ps]
    obtain ⟨x, hx, rfl⟩ | ⟨c, m, -, -, -, he⟩ := decodeByte_next hv
    · exact hx.keeps_sumOk hok hsum
    · rw [(exec_terminates he).ps]
      rintro c' ⟨⟩

/-! ## A data byte -/

/-- With nothing scheduled and no interrupt event left over, a byte before the last changes `rx` and the parser alone. -/
theorem step_accumulates {s : State} {b : Byte} {r : Ring} {x : Parser} (h : s.pops b r)
    (hx : Accumulates s.params b s.ps x) : step s = .next ((s.withRx r).withPs x) := by
  obtain ⟨-, -, hslots, -, -⟩ := id h
  have hd : decodeByte b (s.withRx r) = .next ((s.withRx r).withPs x) := hx.decodeByte_eq (s := s.withRx r)
  rw [step_pops h, hd, andThen, endDecode_nil (s := (s.withRx r).withPs x) hslots]

/-- Settles O36: the byte is the one `Accumulates.data` stores, and the write reads back (20_memory.md). -/
theorem dataByteStoredWhileRoom : Obligations.DataByteStoredWhileRoom := by
  intro s b r h ht hp hop hcnt hwf
  have hl : lookup s.params .i2c s.ps.op = some .i2cWrite := hop ▸ lookup_tag h.1 .i2cWrite
  refine ⟨_, _, step_accumulates h (.data .i2c ht hp hl hcnt), fun hroom => ?_, fun hfull => ?_, fun hlast => ?_,
    fun hmore => ?_⟩
  · rw [if_pos hroom]
    exact ⟨Memory.read_write_same _ _ hwf, fun a ha => Memory.read_write_other _ _ ha⟩
  · exact if_neg (Nat.not_lt.2 hfull)
  · exact if_pos hlast
  · exact if_neg hmore.ne

end Sys2Proof.Machine

/-! The byte transport (20_memory.md). A ring buffer refines the bounded list of R56 operation by operation, what a list does
with pushes alone and with pops alone gives R57; `Replies` says once for all fifteen commands which reply is offered to `tx`
and after which driver calls, and the bytes a reply writes are those of pushes one after the other. -/

namespace Sys2Proof.Machine

/-! ## One operation on a ring buffer -/

/-- With room a push writes at its write pointer and advances it (20_memory.md R52). -/
theorem Ring.push_room {cap : Nat} {r : Ring} (b : Byte) (h : r.occ < cap) :
    r.push cap b =
      (⟨Memory.write r.arr (Ring.mask cap r.wr) b, r.rd, Ring.mask cap (r.wr + 1), r.occ + 1⟩, true) :=
  if_pos h

/-- A pointer in range is its own masked value (R51). -/
theorem Ring.mask_of_lt {cap p : Nat} (hp : powerOfTwo cap = true) (h : p < cap) : Ring.mask cap p = p := by
  rw [Ring.mask_eq_mod hp, Nat.mod_eq_of_lt h]

/-- Masking early or late makes no difference to the address (R51). -/
theorem Ring.mask_mask_add {cap : Nat} (hp : powerOfTwo cap = true) (p j : Nat) :
    Ring.mask cap (Ring.mask cap p + j) = Ring.mask cap (p + j) := by
  simp only [Ring.mask_eq_mod hp, Nat.mod_add_mod]

/-- The write pointer of a well-formed buffer lies in the array (10_state.md R30). -/
theorem Ring.wr_lt {cap : Nat} {r : Ring} (hw : r.wf cap = true) : r.wr < cap := by
  obtain ⟨-, hrd, hwr, -, -⟩ := Ring.wf_iff.1 hw
  exact hwr ▸ Nat.mod_lt _ (Nat.zero_lt_of_lt hrd)

/-- Settles O11: the masked write pointer is the write pointer, and the memory's laws say what the write leaves. -/
theorem pushStoresOrDrops : Obligations.PushStoresOrDrops := by
  intro cap r b hp hw
  refine ⟨fun hroom => ?_, fun hfull => Ring.push_full b (Nat.le_of_not_lt hfull)⟩
  obtain ⟨-, -, -, hm, -⟩ := Ring.wf_iff.1 hw
  rw [Ring.push_room b hroom, Ring.mask_of_lt hp (Ring.wr_lt hw)]
  exact ⟨rfl, Memory.read_write_same _ _ hm, fun a ha => Memory.read_write_other _ _ ha, rfl, rfl, rfl⟩

/-- Settles O12: the masked read pointer is the read pointer. -/
theorem popTakesOldest : Obligations.PopTakesOldest := by
  intro cap r hp hw
  obtain ⟨-, hrd, -, -, -⟩ := Ring.wf_iff.1 hw
  refine ⟨fun h => ⟨decide_eq_true h, ?_⟩, fun h => ⟨by simp [Ring.avail, h], Ring.pop_empty h⟩⟩
  rw [Ring.pop, if_pos h, Ring.mask_of_lt hp hrd]
  rfl

/-! ## The bounded list a ring buffer refines -/

theorem Ring.bytes_eq_nil {cap : Nat} {r : Ring} : r.bytes cap = [] ↔ r.occ = 0 := by
  rw [← List.length_eq_zero_iff, Ring.bytes_length]

/-- `avail` is that the list of the bytes held is not empty (20_memory.md R54). -/
theorem Ring.avail_eq_not_isEmpty (cap : Nat) (r : Ring) : r.avail = !(r.bytes cap).isEmpty := by
  rw [Bool.eq_iff_iff]
  simp [Ring.avail, Ring.bytes_eq_nil, Nat.pos_iff_ne_zero]

/-- Only an empty buffer gives nothing (R53). -/
theorem Ring.pop_eq_none {cap : Nat} {r : Ring} : r.pop cap = none ↔ r.occ = 0 := by
  simp [Ring.pop]

/-- One operation answers as it does on the list of the bytes held, and keeps the two in step (R56). -/
theorem Ring.run1_refines {cap : Nat} {r : Ring} (o : RingOp) (hp : powerOfTwo cap = true) (hw : r.wf cap = true) :
    queueRun1 cap (r.bytes cap) o = ((r.run1 cap o).1, (r.run1 cap o).2.bytes cap) ∧
      (r.run1 cap o).2.wf cap = true := by
  cases o with
  | push b =>
    refine ⟨?_, Ring.push_wf b hp hw⟩
    by_cases hroom : r.occ < cap
    · have hstored : (r.push cap b).2 = true := by rw [Ring.push_room b hroom]
      simp [queueRun1, Ring.run1, hroom, Ring.push_bytes b hp hw hroom, hstored]
    · simp [queueRun1, Ring.run1, hroom, Ring.push_full b (Nat.le_of_not_lt hroom)]
  | pop =>
    cases hr : r.pop cap with
    | none =>
      have hnil : r.bytes cap = [] := Ring.bytes_eq_nil.2 (Ring.pop_eq_none.1 hr)
      simp [queueRun1, Ring.run1, hr, hnil, hw]
    | some br =>
      obtain ⟨hbytes, hw', -⟩ := Ring.pop_some hp hw hr
      simp [queueRun1, Ring.run1, hr, hbytes, hw']
  | avail => exact ⟨by simp [queueRun1, Ring.run1, Ring.avail_eq_not_isEmpty cap], hw⟩

/-- So do operations one after the other. -/
theorem Ring.runOps_refines {cap : Nat} {r : Ring} (ops : List RingOp) (hp : powerOfTwo cap = true)
    (hw : r.wf cap = true) :
    queueRunOps cap ops (r.bytes cap) = ((Ring.runOps cap ops r).1, (Ring.runOps cap ops r).2.bytes cap) := by
  induction ops generalizing r with
  | nil => rfl
  | cons o ops ih =>
    obtain ⟨hq, hw'⟩ := Ring.run1_refines o hp hw
    simp only [queueRunOps, Ring.runOps, hq, ih hw']

/-- Settles O13: the simulation from the empty buffer, which holds the empty list. -/
theorem ringIsBoundedList : Obligations.RingIsBoundedList := by
  intro cap ops hp
  have h := Ring.runOps_refines ops hp (Ring.reset_wf (powerOfTwo_pos hp))
  rw [Ring.reset_bytes] at h
  rw [h]

theorem queueRunOps_append (cap : Nat) (os os' : List RingOp) (q : List Byte) :
    queueRunOps cap (os ++ os') q =
      ((queueRunOps cap os q).1 ++ (queueRunOps cap os' (queueRunOps cap os q).2).1,
        (queueRunOps cap os' (queueRunOps cap os q).2).2) := by
  induction os generalizing q with
  | nil => rfl
  | cons o os ih => simp [queueRunOps, ih]

/-- Pushes for which there is room are all stored, behind what was there. -/
theorem queueRunOps_push_room {cap : Nat} {bs q : List Byte} (h : q.length + bs.length ≤ cap) :
    queueRunOps cap (bs.map .push) q = (List.replicate bs.length (.stored true), q ++ bs) := by
  induction bs generalizing q with
  | nil => simp [queueRunOps]
  | cons b bs ih =>
    rw [List.length_cons] at h
    have hroom : q.length < cap := by omega
    have hrest := ih (q := q ++ [b]) (by rw [List.length_append, List.length_singleton]; omega)
    simp [queueRunOps, queueRun1, hroom, hrest, List.replicate_succ]

/-- Pushes onto a full list are all refused. -/
theorem queueRunOps_push_full {cap : Nat} {q : List Byte} (bs : List Byte) (h : cap ≤ q.length) :
    queueRunOps cap (bs.map .push) q = (List.replicate bs.length (.stored false), q) := by
  induction bs with
  | nil => rfl
  | cons b bs ih => simp [queueRunOps, queueRun1, Nat.not_lt.2 h, ih, List.replicate_succ]

/-- As many pops as there are bytes give them all back in order. -/
theorem queueRunOps_pop_all (cap : Nat) (q : List Byte) :
    queueRunOps cap (List.replicate q.length .pop) q = (q.map fun b => .popped (some b), []) := by
  induction q with
  | nil => rfl
  | cons b q ih => simp [List.replicate_succ, queueRunOps, queueRun1, ih]

/-- More pushes than the capacity: the first `cap` are stored, the others refused (20_memory.md R57). -/
theorem queueRunOps_push_saturates {cap : Nat} {bs : List Byte} (h : cap ≤ bs.length) :
    queueRunOps cap (bs.map .push) [] =
      (List.replicate cap (.stored true) ++ List.replicate (bs.length - cap) (.stored false), bs.take cap) := by
  have hlen : (bs.take cap).length = cap := List.length_take_of_le h
  have hfits := queueRunOps_push_room (cap := cap) (q := []) (bs := bs.take cap) (by simp)
  have hrefused := queueRunOps_push_full (bs.drop cap) hlen.ge
  conv_lhs => rw [← List.take_append_drop cap bs, List.map_append, queueRunOps_append, hfits, List.nil_append, hrefused]
  rw [hlen, List.length_drop]

/-- Settles O14: the list's saturation, carried over by the refinement. -/
theorem ringSaturates : Obligations.RingSaturates := by
  intro cap r bs hp hw hocc hlt
  have hnil : r.bytes cap = [] := Ring.bytes_eq_nil.2 hocc
  have hlen : (bs.take cap).length = cap := List.length_take_of_le hlt.le
  have hpushes := queueRunOps_push_saturates hlt.le
  have hpops := queueRunOps_pop_all cap (bs.take cap)
  rw [hlen] at hpops
  have refines (ops) := Ring.runOps_refines ops hp hw
  simp only [hnil] at refines
  constructor
  · have hbytes : (Ring.runOps cap (bs.map .push) r).2.bytes cap = bs.take cap := by
      rw [← (Prod.mk.inj (hpushes.symm.trans (refines _))).2]
    rw [← Ring.bytes_length cap, hbytes, hlen]
  · have hboth := refines (bs.map .push ++ List.replicate cap .pop)
    rw [queueRunOps_append, hpushes, hpops] at hboth
    exact (Prod.mk.inj hboth).1.symm

/-! ## The interrupt events as steps -/

/-- A scheduled interrupt event is the whole step (10_state.md R42). -/
theorem step_irq {s : State} {e : Irq} {es : List Event} (hp : s.params.ok = true) (hs : s.schedule = .irq e :: es) :
    step s = .next (runIrq e (s.withSchedule es)) := by
  rw [step_ok hp, nextEvent, hs]

/-- Settles O28: the receive handler is a push whose answer nobody reads. -/
theorem rxArriveStoresOrLoses : Obligations.RxArriveStoresOrLoses := by
  intro s b es ⟨hp, hrx, _⟩ hs
  refine ⟨_, step_irq hp hs, fun hroom => ⟨Ring.push_bytes b (Params.ok_iff.1 hp).1 hrx hroom, rfl⟩, fun hfull => ?_⟩
  rw [runIrq, rxArrive, State.withSchedule_rx, State.withSchedule_params, Ring.push_full b hfull.ge]
  rfl

/-- With a byte waiting `TxDrain` moves the oldest to the wire (20_memory.md R59). -/
theorem txDrain_cons {s : State} {b : Byte} {q : List Byte} (hp : s.params.ok = true)
    (hw : s.tx.wf s.params.txCap = true) (h : s.txBytes = b :: q) :
    ∃ r, r.bytes s.params.txCap = q ∧ txDrain s = (s.withTx r).wire b := by
  have hocc : s.tx.occ ≠ 0 := fun h0 => List.cons_ne_nil b q (h.symm.trans (Ring.bytes_eq_nil.2 h0))
  obtain ⟨b', r, hr⟩ := Ring.pop_isSome (cap := s.params.txCap) (Nat.pos_of_ne_zero hocc)
  obtain ⟨hbytes, -, -⟩ := Ring.pop_some (Params.ok_iff.1 hp).2.1 hw hr
  obtain ⟨rfl, rfl⟩ := List.cons.inj (h.symm.trans hbytes)
  exact ⟨r, rfl, by simp only [txDrain, hr]⟩

/-- Settles O29: `TxDrain` pops, and what it pops is the head of the bytes waiting. -/
theorem txDrainSendsOldest : Obligations.TxDrainSendsOldest := by
  intro s es ⟨hp, _, htx, _⟩ hs
  refine ⟨_, step_irq hp hs, fun hnil => ?_, fun b q hcons => ?_⟩
  · exact txDrain_empty (s := s.withSchedule es) (Ring.bytes_eq_nil.1 hnil)
  · obtain ⟨r, hr, hdrain⟩ := txDrain_cons (s := s.withSchedule es) hp htx hcons
    rw [runIrq, hdrain]
    exact ⟨hr, rfl, rfl⟩

/-! ## The reply of a command -/

/-- The reply frame of a command (40_dispatcher.md R122, R123): `okFrame` and `nokFrame` are its two cases. -/
def replyFrame (p : Params) (m : Cmd) (status : Byte) (data : List Byte) : List Byte :=
  frameOf ([m.cls.tag, m.tag p, status] ++ data)

theorem okFrame_eq_replyFrame (p : Params) (m : Cmd) (data : List Byte) :
    okFrame p m data = replyFrame p m statusOk data := rfl

theorem nokFrame_eq_replyFrame (p : Params) (m : Cmd) : nokFrame p m = replyFrame p m statusNok [] := rfl

@[simp] theorem replyFrame_length (p : Params) (m : Cmd) (status : Byte) (data : List Byte) :
    (replyFrame p m status data).length = 4 + data.length := by
  simp only [replyFrame, frameOf, List.length_append, List.length_cons, List.length_nil]
  omega

/-- What the answer `a` of a command `m` is: from `s` the driver calls `cs` lead to `u`, there one reply frame with
`status` and `data` is offered to `tx`, and after that only the parser state changes (40_dispatcher.md R120 to R124). -/
structure Replies (m : Cmd) (a : Answer) (s : State) (status : Byte) (data : List Byte) (cs : List DrvCall)
    (u : State) : Prop where
  answer : ∃ x, a = .next ((emit (replyFrame s.params m status data) u).withPs x)
  runs : Runs cs s u
  still : s.slots = [] → Still s u
  length : data.length ≤ max 12 s.params.i2cRdCap.toNat
  points : Points cs.length s u

/-- Every command replies once, with the data of a success or with a bare NOK. -/
theorem exec_replies (i : Instr) (s : State) : ∃ status data cs u, Replies i.cmd (exec i s) s status data cs u := by
  by_cases hg : i.lastByte = s.ps.csum ∧ valid s.params i = true
  · obtain ⟨data, u, cs, ok⟩ := exec_ok hg
    refine ⟨statusOk, data, cs, u, ?_, ok.runs, ok.still, ok.length, ok.points⟩
    rw [ok.answer, replyOk, okFrame_eq_replyFrame, ok.runs.params]
    split
    · exact ⟨_, rfl⟩
    · exact ⟨_, rfl⟩
  · refine ⟨statusNok, [], [], s, ?_, Runs.refl s, Still.refl, Nat.zero_le _, Points.refl s⟩
    rw [exec_nok hg, replyNok, nokFrame_eq_replyFrame]
    exact ⟨_, rfl⟩

/-- Settles O44: the driver calls only let `tx` drain, so the reply still fits, and each point passed is one of the calls or
one of the reply's bytes. -/
theorem replyWholeUnderInterrupts : Obligations.ReplyWholeUnderInterrupts := by
  intro i s hp hw hroom
  obtain ⟨status, data, cs, u, h⟩ := exec_replies i s
  obtain ⟨x, hanswer⟩ := h.answer
  have hemits := emit_emits (replyFrame s.params i.cmd status data) u
  have hpoints := h.points.trans (emit_points (replyFrame s.params i.cmd status data) u)
  have hpu : u.params.ok = true := h.runs.params ▸ hp
  have hwu := h.runs.txWf hp hw
  refine ⟨_, status, data, hanswer, ?_, hemits.txWf hpu hwu, h.runs.wireOut.trans hemits.wireOut, ?_⟩
  · have hocc := h.runs.occ
    have hlen := h.length
    have hfits : u.tx.occ + (replyFrame s.params i.cmd status data).length ≤ u.params.txCap := by
      rw [h.runs.params, replyFrame_length]
      omega
    rw [State.withPs_sent, hemits.sent hpu hwu hfits, h.runs.sent hp hw, replyFrame]
  · rw [State.withPs_slots, State.withPs_drvLog, hpoints.slots, hemits.drvLog, h.runs.drvLog, replyFrame_length,
      List.length_append, Nat.add_sub_cancel_left]

/-! ## The bytes of `tx` that a reply writes -/

/-- With no interrupt event inside the Decode, `emit` leaves `tx` as its pushes one after the other do (R124). -/
theorem emit_tx {s : State} (f : List Byte) (h : s.slots = []) : (emit f s).tx = s.tx.receive s.params.txCap f := by
  induction f generalizing s with
  | nil => rfl
  | cons b f ih =>
    rw [emit, preempt_nil h]
    exact ih (s := txPush b s) h

theorem Ring.receive_cons (cap : Nat) (r : Ring) (b : Byte) (bs : List Byte) :
    r.receive cap (b :: bs) = (r.push cap b).1.receive cap bs := rfl

/-- Pushes leave the read pointer. -/
@[simp] theorem Ring.receive_rd (cap : Nat) (r : Ring) (bs : List Byte) : (r.receive cap bs).rd = r.rd := by
  induction bs generalizing r with
  | nil => rfl
  | cons b bs ih => rw [Ring.receive_cons, ih, Ring.push_rd]

/-- Pushes take no byte out. -/
theorem Ring.le_receive_occ (cap : Nat) (r : Ring) (bs : List Byte) : r.occ ≤ (r.receive cap bs).occ := by
  induction bs generalizing r with
  | nil => exact Nat.le_refl _
  | cons b bs ih =>
    have hrest := ih (r.push cap b).1
    rw [Ring.push_occ] at hrest
    rw [Ring.receive_cons]
    split at hrest <;> omega

/-- Pushes write the positions from the write pointer on, one per byte stored, and no other (20_memory.md R52). -/
theorem Ring.receive_read_other {cap a : Nat} {r : Ring} {bs : List Byte} (hp : powerOfTwo cap = true)
    (ha : ∀ j, j < (r.receive cap bs).occ - r.occ → a ≠ Ring.mask cap (r.wr + j)) :
    Memory.read (r.receive cap bs).arr a = Memory.read r.arr a := by
  induction bs generalizing r with
  | nil => rfl
  | cons b bs ih =>
    rw [Ring.receive_cons] at ha ⊢
    by_cases hroom : r.occ < cap
    · rw [Ring.push_room b hroom] at ha ⊢
      have hgrows := Ring.le_receive_occ cap
        ⟨Memory.write r.arr (Ring.mask cap r.wr) b, r.rd, Ring.mask cap (r.wr + 1), r.occ + 1⟩ bs
      simp only at ha hgrows
      rw [ih fun j hj => ?_]
      · exact Memory.read_write_other _ _ (ha 0 (by omega))
      · rw [Ring.mask_mask_add hp, Nat.add_assoc]
        exact ha (1 + j) (by simp only at hj; omega)
    · rw [Ring.push_full b (Nat.le_of_not_lt hroom)] at ha ⊢
      exact ih ha

/-- Settles O46: without interrupt events the driver calls leave both buffers, and the reply is pushes onto `tx`. -/
theorem commandLeavesOtherMemory : Obligations.CommandLeavesOtherMemory := by
  intro i s t he hp hw hs
  obtain ⟨status, data, cs, u, h⟩ := exec_replies i s
  obtain ⟨x, hanswer⟩ := h.answer
  have hstill := h.still hs
  obtain ⟨-, hemit⟩ := emit_atomic (f := replyFrame s.params i.cmd status data) (h.runs.params ▸ hp)
    (h.runs.txWf hp hw) hstill.slots
  have htx := emit_tx (replyFrame s.params i.cmd status data) hstill.slots
  rw [h.runs.params, hstill.tx] at htx
  have hbuf : t.ps.buf = s.ps.buf := by rw [(exec_terminates he).ps]; rfl
  obtain rfl := Host.Outcome.next.inj (hanswer.symm.trans he)
  refine ⟨fun a => ?_, fun a => by rw [hbuf], ?_⟩
  · rw [State.withPs_rx, hemit, State.withTx_rx, hstill.rx]
  · rw [State.withPs_tx, htx]
    exact ⟨Ring.receive_rd .., Ring.le_receive_occ .., fun a ha => Ring.receive_read_other (Params.ok_iff.1 hp).2.1 ha⟩

end Sys2Proof.Machine

/-! The frame codec (30_encoding.md). `decodeRest_ok_iff` says once which byte sequences decode after the two tags; encode and
decode meet in it. `verify` sees a frame's body only through its sum, which gives what it detects and what it does not. -/

namespace Sys2Proof

/-! ## The parts of an assembled instruction -/

/-- The argument bytes an instruction was assembled from are those of its frame (30_encoding.md R83, R88). -/
theorem assemble_argBytes {m : Cmd} {args : List Byte} (h : args.length = m.nfix) (data : List Byte) (k : Byte) :
    (assemble m (Args.ofList args) data k).argBytes = args := by
  cases m with
  | miscReset | miscGetId | miscGetTemp | analogReadAll =>
    obtain rfl := List.length_eq_zero_iff.1 h
    rfl
  | gpioRead | analogRead | i2cConfig | counterRead =>
    obtain ⟨a0, rfl⟩ := List.length_eq_one_iff.1 h
    rfl
  | gpioConfig | gpioWrite | counterConfig =>
    obtain ⟨a0, a1, rfl⟩ := List.length_eq_two.1 h
    rfl
  | i2cRead | i2cWrite | servoConfig | servoSet =>
    obtain ⟨a0, a1, a2, rfl⟩ := List.length_eq_three.1 h
    simp [assemble, Instr.argBytes, Args.ofList]

/-- So are its data bytes, when they are as many as the arguments declare (R100). -/
theorem assemble_dataBytes {m : Cmd} {a : Args} {data : List Byte} (h : data.length = m.dataLength a) (k : Byte) :
    (assemble m a data k).dataBytes = data := by
  by_cases hm : m.hasData = true
  · obtain rfl := Cmd.hasData_iff.1 hm
    rfl
  · obtain rfl : data = [] := List.length_eq_zero_iff.1 (h.trans (if_neg hm))
    cases m <;> rfl

/-- Such an instruction is well formed (R100). -/
theorem assemble_wellFormed {m : Cmd} {args data : List Byte} (ha : args.length = m.nfix)
    (hd : data.length = m.dataLength (Args.ofList args)) (k : Byte) :
    (assemble m (Args.ofList args) data k).wellFormed = true := by
  cases m with
  | i2cWrite => simpa [assemble, Instr.wellFormed, Cmd.dataLength, Cmd.hasData] using hd
  | _ => rfl

/-! ## Decoding -/

/-- The rest of a frame decodes exactly when it is as many argument bytes as the command has, as many data bytes as those
declare, and one byte more (30_encoding.md R82, R83, R100). -/
theorem decodeRest_ok_iff {m : Cmd} {bs rest : List Byte} {i : Instr} :
    decodeRest m bs = .ok (i, rest) ↔ ∃ (args data : List Byte) (k : Byte),
      args.length = m.nfix ∧ data.length = m.dataLength (Args.ofList args) ∧
      bs = args ++ (data ++ k :: rest) ∧ i = assemble m (Args.ofList args) data k := by
  constructor
  · intro h
    unfold decodeRest at h
    split at h
    next => cases h
    next hlen =>
      dsimp only at h
      split at h
      next => cases h
      next k rest' hdrop =>
        cases h
        have hargs : (bs.take m.nfix).length = m.nfix := List.length_take_of_le (Nat.not_lt.1 hlen)
        have hdata := congrArg List.length hdrop
        refine ⟨bs.take m.nfix, _, k, hargs, List.length_take_of_le ?_, ?_, rfl⟩
        · simp only [List.length_drop, List.length_cons] at hdata ⊢
          omega
        · rw [← hdrop, List.take_append_drop, List.take_append_drop]
  · rintro ⟨args, data, k, ha, hd, rfl, rfl⟩
    simp [decodeRest, ← ha, ← hd]

/-- A byte sequence that decodes is the two tags of a command and what follows them. -/
theorem decode_ok {p : Params} {bs rest : List Byte} {i : Instr} (h : decode p bs = .ok (i, rest)) :
    ∃ (m : Cmd) (bs' : List Byte), bs = m.cls.tag :: m.tag p :: bs' ∧ decodeRest m bs' = .ok (i, rest) := by
  unfold decode at h
  split at h
  next => cases h
  next c bs =>
    split at h
    next => cases h
    next cls hc =>
      split at h
      next => cases h
      next t bs' =>
        split at h
        next => cases h
        next m hm =>
          obtain rfl := Cls.ofTag_some hc
          obtain ⟨rfl, rfl⟩ := lookup_some hm
          exact ⟨m, bs', rfl, h⟩

/-- The two tags of a command select it, when the tags are distinct in its class (R87). -/
theorem decode_tags {p : Params} (hp : p.ok = true) (m : Cmd) (bs : List Byte) :
    decode p (m.cls.tag :: m.tag p :: bs) = decodeRest m bs := by
  simp [decode, lookup_tag hp]

theorem encode_append (p : Params) (i : Instr) (rest : List Byte) :
    encode p i ++ rest = i.cmd.cls.tag :: i.cmd.tag p :: (i.argBytes ++ (i.dataBytes ++ i.lastByte :: rest)) := by
  simp [encode, Instr.body]

/-- Settles O1: the tags select the instruction's command, and the rest of the frame is its own parts. -/
theorem decodeOfEncodeIsInstruction : Obligations.DecodeOfEncodeIsInstruction := by
  intro p i rest hp hi
  rw [encode_append, decode_tags hp]
  exact decodeRest_ok_iff.2 ⟨_, _, _, i.argBytes_length, Instr.dataBytes_length hi, rfl, (assemble_self i).symm⟩

/-- Settles O2: the parts read are those of the instruction assembled from them. -/
theorem decodedBytesAreTheEncoding : Obligations.DecodedBytesAreTheEncoding := by
  intro p bs rest i h
  obtain ⟨m, bs', rfl, hrest⟩ := decode_ok h
  obtain ⟨args, data, k, ha, hd, rfl, rfl⟩ := decodeRest_ok_iff.1 hrest
  refine ⟨assemble_wellFormed ha hd k, ?_⟩
  rw [encode_append, assemble_cmd, assemble_argBytes ha, assemble_dataBytes hd, assemble_lastByte]

/-- Settles O3: each frame is the encoding of its command, as O1 takes it. -/
theorem exampleFramesDecode : Obligations.ExampleFramesDecode := by
  have frame (i : Instr) (hi : i.wellFormed = true) :
      decode Params.default (encode Params.default i ++ []) = .ok (i, []) :=
    decodeOfEncodeIsInstruction Params.default i [] Params.default_ok hi
  exact ⟨frame (.miscReset 0x02) rfl, frame (.gpioWrite 0x0D 0x01 0x13) rfl, frame (.analogRead 0x00 0xFF) rfl,
    frame (.servoConfig 0x09 0x05DC 0xF0) rfl, frame (.i2cWrite 0x50 0x10 0x03 [0xDE, 0xAD, 0xBE] 0xB3) rfl⟩

/-! ## Tags, fields and lengths -/

/-- A byte with a class tag's value names that class (R85). -/
theorem Cls.ofTag_of_toNat {b : Byte} (c : Cls) (h : b.toNat = c.tag.toNat) : Cls.ofTag b = some c := by
  rw [BitVec.eq_of_toNat_eq h, Cls.ofTag_tag]

/-- Settles O4: a byte that names a class is its tag, and each tag has one of the six values. -/
theorem classTagValues : Obligations.ClassTagValues := by
  intro b
  split
  next h => exact Cls.ofTag_of_toNat .misc h
  next h => exact Cls.ofTag_of_toNat .gpio h
  next h => exact Cls.ofTag_of_toNat .analog h
  next h => exact Cls.ofTag_of_toNat .i2c h
  next h => exact Cls.ofTag_of_toNat .servo h
  next h => exact Cls.ofTag_of_toNat .counter h
  next h1 h2 h3 h4 h5 h6 =>
    cases hb : Cls.ofTag b with
    | none => rfl
    | some c =>
      obtain rfl := Cls.ofTag_some hb
      cases c
      exacts [absurd rfl h1, absurd rfl h2, absurd rfl h3, absurd rfl h4, absurd rfl h5, absurd rfl h6]

/-- Two bytes make any number below 2^16, so nothing of the field is lost (R88). -/
theorem half_toNat (hi lo : Byte) : (half hi lo).toNat = hi.toNat * 256 + lo.toNat := by
  have := hi.isLt
  have := lo.isLt
  rw [half, BitVec.toNat_ofNat]
  omega

/-- Settles O5: the pulse width is the 16-bit field of the two bytes, which gives the bytes back. -/
theorem pulseWidthIsBigEndian : Obligations.PulseWidthIsBigEndian := by
  intro a k
  exact ⟨half a.a1 a.a2, half_toNat a.a1 a.a2, rfl, rfl, by simp [Instr.argBytes], by simp [Instr.argBytes]⟩

/-- A frame is its two tags, its arguments, its data and its checksum byte (R82). -/
theorem encode_length (p : Params) (i : Instr) :
    (encode p i).length = 3 + i.cmd.nfix + i.dataBytes.length := by
  simp only [encode, Instr.body, List.length_append, Instr.argBytes_length, List.length_cons, List.length_nil]
  omega

/-- Settles O6: each command's number of arguments, and for an I2C Write the data its length byte declares. -/
theorem requestLengths : Obligations.RequestLengths := by
  intro p i hi
  rw [encode_length]
  cases i with
  | i2cWrite addr off n data k =>
    have hdata : data.length = n.toNat := by simpa [Instr.wellFormed] using hi
    simp [Instr.cmd, Cmd.nfix, Instr.dataBytes, hdata]
  | _ => rfl

end Sys2Proof

namespace Sys2Proof.Machine

/-! ## The checksum -/

/-- `verify` compares the last byte with the checksum of those before it (30_encoding.md R95). -/
@[simp] theorem verify_append_singleton (body : List Byte) (k : Byte) :
    verify (body ++ [k]) = .ok (checksum body == k) := by
  simp [verify]

/-- A body with the same sum passes with the old checksum (R96). -/
theorem verify_of_checksum_eq {B B' : List Byte} (h : checksum B' = checksum B) :
    verify (B' ++ [checksum B]) = .ok true := by
  rw [verify_append_singleton, h, beq_self_eq_true]

/-- Adding to one byte adds to the checksum (R94). -/
theorem checksum_set_add {l : List Byte} {j : Nat} {b : Byte} (c : Byte) (h : l[j]? = some b) :
    checksum (l.set j (b + c)) = checksum l + c := by
  induction l generalizing j with
  | nil => cases h
  | cons x l ih =>
    cases j with
    | zero =>
      cases h
      simp only [List.set_cons_zero, checksum_cons]
      ac_rfl
    | succ j =>
      simp only [List.set_cons_succ, checksum_cons, ih (j := j) h]
      ac_rfl

/-- Settles O7: the last byte is the checksum it is compared with. -/
theorem checksumRoundTrip : Obligations.ChecksumRoundTrip :=
  ⟨rfl, fun _ => verify_of_checksum_eq rfl⟩

/-- Settles O8: the byte added stands in one of the two sums that `verify` compares, and not in the other. -/
theorem singleByteCorruptionDetected : Obligations.SingleByteCorruptionDetected := by
  intro B j b c hb hc
  by_cases hj : j < B.length
  · have hbody : B[j]? = some b := by rwa [List.getElem?_append_left hj] at hb
    rw [List.set_append_left _ _ hj, verify_append_singleton, checksum_set_add c hbody]
    simpa using hc
  · have hlast : j = B.length := by
      have hlt := (List.getElem?_eq_some_iff.1 hb).1
      rw [List.length_append, List.length_singleton] at hlt
      omega
    subst hlast
    obtain rfl : checksum B = b := by simpa using hb
    rw [List.set_append_right _ _ le_rfl, Nat.sub_self, List.set_cons_zero, verify_append_singleton]
    simpa using hc

/-- Settles O9: each change leaves the sum of the body's bytes as it was. -/
theorem compensatingChangesUndetected : Obligations.CompensatingChangesUndetected := by
  intro A B C x y c d
  refine ⟨fun hcd => verify_of_checksum_eq ?_, verify_of_checksum_eq ?_, verify_of_checksum_eq ?_⟩
  · calc checksum (A ++ [x + c] ++ B ++ [y + d] ++ C)
        = checksum (A ++ [x] ++ B ++ [y] ++ C) + (c + d) := by
          simp only [checksum_append, checksum_cons]
          ac_rfl
      _ = checksum (A ++ [x] ++ B ++ [y] ++ C) := by rw [hcd, add_zero]
  · simp only [checksum_append, checksum_cons]
    ac_rfl
  · simp

/-! ## The GPIO Read byte -/

@[simp] theorem bitByte_getLsbD (x : Bool) (j : Nat) : (bitByte x).getLsbD j = (decide (j = 0) && x) := by
  cases x <;> simp [bitByte]

/-- Settles O10: each of the three bits stands alone at its own place after its shift. -/
theorem gpioReadByteBits : Obligations.GpioReadByteBits := by
  intro g
  simp only [gpioReadByte, BitVec.getLsbD_or, BitVec.getLsbD_shiftLeft, bitByte_getLsbD]
  refine ⟨by simp, by simp, by simp, fun j hj => ?_⟩
  simp [show j ≠ 0 by omega, show j - 1 ≠ 0 by omega, show j - 2 ≠ 0 by omega]

end Sys2Proof.Machine

/-! What a command leaves, for all fifteen at once: of the parser state and the registers what `exec_terminates` and the points
of the Decode say, of `tx` one reply frame whose status tells success from failure, and nothing that depends on `tx`. -/

namespace Sys2Proof

theorem Instr.eq_miscReset_iff {i : Instr} {k : Byte} : i = .miscReset k ↔ i.cmd = .miscReset ∧ i.lastByte = k := by
  cases i <;> simp [Instr.cmd, Instr.lastByte]

end Sys2Proof

namespace Sys2Proof.Machine

/-! ## The parser state and the registers -/

/-- No command stops the machine (40_dispatcher.md R130). -/
theorem exec_answers (i : Instr) (s : State) : ∃ t, exec i s = .next t := by
  obtain ⟨t, _, ht, -⟩ := exec_points i s
  exact ⟨t, ht⟩

/-- Settles O41: the parser state after the terminal step is `Parser.afterTerminal`. -/
theorem terminalStepAwaitsNextFrame : Obligations.TerminalStepAwaitsNextFrame := by
  intro i s
  obtain ⟨t, ht⟩ := exec_answers i s
  have hps := (exec_terminates ht).ps
  refine ⟨t, ht, by rw [hps]; rfl, ?_⟩
  simp [hps, Parser.afterTerminal, Instr.eq_miscReset_iff]

/-- With no interrupt event inside the Decode, a reply changes `tx` alone, whatever its capacity (R124). -/
theorem emit_eq_withTx {s : State} (f : List Byte) (h : s.slots = []) :
    emit f s = s.withTx (s.tx.receive s.params.txCap f) := by
  induction f generalizing s with
  | nil => rfl
  | cons b f ih =>
    rw [emit, preempt_nil h, ih (s := txPush b s) h]
    rfl

/-- A command leaves the events still to come. -/
theorem exec_schedule {i : Instr} {s t : State} (h : exec i s = .next t) : t.schedule = s.schedule := by
  obtain ⟨status, data, cs, u, hr⟩ := exec_replies i s
  obtain ⟨x, hanswer⟩ := hr.answer
  obtain rfl := Host.Outcome.next.inj (hanswer.symm.trans h)
  exact (emit_emits _ u).schedule.trans hr.runs.schedule

/-- With no interrupt event inside the Decode a command leaves `rx` and the wire, and no event to come (20_memory.md R58,
R59). -/
theorem exec_quiet {i : Instr} {s t : State} (h : exec i s = .next t) (hs : s.slots = []) :
    t.rx = s.rx ∧ t.wireOut = s.wireOut ∧ t.slots = [] := by
  obtain ⟨status, data, cs, u, hr⟩ := exec_replies i s
  obtain ⟨x, hanswer⟩ := hr.answer
  have hstill := hr.still hs
  rw [emit_eq_withTx _ hstill.slots] at hanswer
  obtain rfl := Host.Outcome.next.inj (hanswer.symm.trans h)
  exact ⟨hstill.rx, hstill.wireOut, hstill.slots⟩

/-- Settles O45: the parser's fields are those of `Parser.afterTerminal`; `rx` changes at the points of the Decode alone. -/
theorem commandLeavesOtherRegisters : Obligations.CommandLeavesOtherRegisters := by
  intro i s t he
  have hterm := exec_terminates he
  have hps := hterm.ps
  obtain ⟨t', k, ht, hpoints⟩ := exec_points i s
  obtain rfl := Host.Outcome.next.inj (ht.symm.trans he)
  exact ⟨hterm.keeps.params, exec_schedule he, hterm.spin, hps ▸ rfl, hps ▸ rfl, hps ▸ rfl, hps ▸ rfl, hps ▸ rfl,
    hps ▸ rfl, hps ▸ rfl, hterm.keeps.wireOut, hterm.keeps.drvLog, ⟨k, hpoints.slots, hpoints.rx⟩, exec_quiet he⟩

/-! ## The reply -/

/-- Every command replies once, and the status says which of the two outcomes it was (R122, R123). -/
theorem exec_replies_status (i : Instr) (s : State) :
    ∃ status data cs u, Replies i.cmd (exec i s) s status data cs u ∧
      (i.lastByte = s.ps.csum ∧ valid s.params i = true → status = 1) ∧
      (¬(i.lastByte = s.ps.csum ∧ valid s.params i = true) → status = 0 ∧ data = []) := by
  by_cases hg : i.lastByte = s.ps.csum ∧ valid s.params i = true
  · obtain ⟨data, u, cs, ok⟩ := exec_ok hg
    refine ⟨statusOk, data, cs, u, ⟨?_, ok.runs, ok.still, ok.length, ok.points⟩, fun _ => rfl, fun h => absurd hg h⟩
    rw [ok.answer, replyOk, okFrame_eq_replyFrame, ok.runs.params]
    split
    · exact ⟨_, rfl⟩
    · exact ⟨_, rfl⟩
  · refine ⟨statusNok, [], [], s, ⟨?_, Runs.refl s, Still.refl, Nat.zero_le _, Points.refl s⟩, fun h => absurd h hg,
      fun _ => ⟨rfl, rfl⟩⟩
    rw [exec_nok hg, replyNok, nokFrame_eq_replyFrame]
    exact ⟨_, rfl⟩

/-! ## Nothing but `tx` depends on `tx` -/

/-- The two answers are the same next state, but for `tx`. -/
def SameOffTx (a a' : Answer) : Prop := ∃ t q, a = .next t ∧ a' = .next (t.withTx q)

/-- The driver calls `run` draw the same data and do the same from `s` whatever `tx` holds, and leave no interrupt event
to come. -/
structure IgnoresTx (run : State → List Byte × State) (s : State) : Prop where
  withTx : ∀ q, run (s.withTx q) = ((run s).1, (run s).2.withTx q)
  slots : (run s).2.slots = []

/-- One driver call with no interrupt event before it: what it draws depends on the drivers' history alone (10_state.md R40). -/
theorem driverCall_ignoresTx {s : State} (data : List DrvEvent → List Byte) (call : List DrvEvent → DrvCall)
    (hs : s.slots = []) :
    IgnoresTx (fun s => (data (preempt s).drvTrace, (preempt s).driver (.call (call (preempt s).drvTrace)))) s where
  withTx := fun q => by
    rw [preempt_nil hs, preempt_nil (s := s.withTx q) hs]
    rfl
  slots := by
    rw [preempt_nil hs]
    exact hs

theorem drvCall_ignoresTx {s : State} (c : DrvCall) (hs : s.slots = []) : IgnoresTx (noData (drvCall c)) s :=
  driverCall_ignoresTx (fun _ => []) (fun _ => c) hs

theorem drvI2cRead_ignoresTx {s : State} (addr off n : Byte) (hs : s.slots = []) : IgnoresTx (drvI2cRead addr off n) s :=
  driverCall_ignoresTx (fun h => (List.range n.toNat).map (Config.i2cReadByte h addr off n))
    (fun h => .i2cRead addr off n ((List.range n.toNat).map (Config.i2cReadByte h addr off n))) hs

theorem drvAdcReads_withTx {s : State} (chs : List Byte) (q : Ring) (hs : s.slots = []) :
    drvAdcReads chs (s.withTx q) = ((drvAdcReads chs s).1, (drvAdcReads chs s).2.withTx q) := by
  induction chs generalizing s with
  | nil => rfl
  | cons ch chs ih =>
    have hfirst : drvAdcRead ch (s.withTx q) = ((drvAdcRead ch s).1, (drvAdcRead ch s).2.withTx q) := by
      rw [drvAdcRead, drvAdcRead, preempt_nil hs, preempt_nil (s := s.withTx q) hs]
      rfl
    have hslots : (drvAdcRead ch s).2.slots = [] := (Still.driver hs _).slots
    simp only [drvAdcReads, hfirst, ih hslots]

theorem drvAdcReads_ignoresTx {s : State} (chs : List Byte) (hs : s.slots = []) :
    IgnoresTx (fun s => ((drvAdcReads chs s).1.flatMap readingBytes, (drvAdcReads chs s).2)) s where
  withTx := fun q => by rw [drvAdcReads_withTx chs q hs]
  slots := (drvAdcReads_still chs hs).slots

/-- A command made by `terminal` does so too: its reply goes to `tx` alone. -/
theorem terminal_sameOffTx {m : Cmd} {k : Byte} {inRange : Bool} {run : State → List Byte × State} {s : State} (q : Ring)
    (hs : s.slots = []) (h : IgnoresTx run s) :
    SameOffTx (terminal m k inRange run s) (terminal m k inRange run (s.withTx q)) := by
  by_cases hg : k = s.ps.csum ∧ inRange = true
  · rw [terminal_ok hg.1 hg.2, terminal_ok (s := s.withTx q) hg.1 hg.2, h.withTx, replyOk, replyOk,
      emit_eq_withTx _ h.slots, emit_eq_withTx (s := (run s).2.withTx q) _ h.slots]
    exact ⟨_, _, rfl, rfl⟩
  · rw [terminal_nok hg, terminal_nok (s := s.withTx q) hg, replyNok, replyNok, emit_eq_withTx _ hs,
      emit_eq_withTx (s := s.withTx q) _ hs]
    exact ⟨_, _, rfl, rfl⟩

/-- With no interrupt event inside the Decode, what a command does besides its reply is the same whatever `tx` holds
(20_memory.md R60). -/
theorem exec_sameOffTx (i : Instr) {s : State} (q : Ring) (hs : s.slots = []) :
    SameOffTx (exec i s) (exec i (s.withTx q)) := by
  cases i with
  | miscReset k =>
    simp only [exec, execMiscReset, replyOk, replyNok, emit_eq_withTx _ hs, emit_eq_withTx (s := s.withTx q) _ hs,
      State.withTx_ps]
    split <;> exact ⟨_, _, rfl, rfl⟩
  | miscGetId k =>
    simp only [exec, execMiscGetId]
    exact terminal_sameOffTx q hs ⟨fun _ => rfl, hs⟩
  | miscGetTemp k =>
    simp only [exec, execMiscGetTemp]
    exact terminal_sameOffTx q hs (driverCall_ignoresTx
      (fun h => [hi8 (Config.tempSample h), lo8 (Config.tempSample h)]) (fun h => .tempSample (Config.tempSample h)) hs)
  | gpioConfig | gpioWrite | i2cConfig | i2cWrite | servoConfig | servoSet | counterConfig =>
    simp only [exec, execGpioConfig, execGpioWrite, execI2cConfig, execI2cWrite, execServoConfig, execServoSet,
      execCounterConfig, State.withTx_params]
    exact terminal_sameOffTx q hs (drvCall_ignoresTx _ hs)
  | gpioRead pin k =>
    simp only [exec, execGpioRead]
    exact terminal_sameOffTx q hs (driverCall_ignoresTx (fun h => [gpioReadByte (Config.gpioRead h pin)])
      (fun h => .gpioRead pin (Config.gpioRead h pin)) hs)
  | analogRead ch k =>
    simp only [exec, execAnalogRead]
    exact terminal_sameOffTx q hs (driverCall_ignoresTx (fun h => readingBytes (Config.adcRead h ch))
      (fun h => .adcRead ch (Config.adcRead h ch)) hs)
  | analogReadAll k =>
    simp only [exec, execAnalogReadAll]
    exact terminal_sameOffTx q hs (drvAdcReads_ignoresTx allChannels hs)
  | i2cRead addr off n k =>
    simp only [exec, execI2cRead, State.withTx_params]
    exact terminal_sameOffTx q hs (drvI2cRead_ignoresTx addr off n hs)
  | counterRead pin k =>
    simp only [exec, execCounterRead]
    exact terminal_sameOffTx q hs (driverCall_ignoresTx (fun h => [Config.counterRead h pin])
      (fun h => .counterRead pin (Config.counterRead h pin)) hs)

/-- Settles O43: the driver calls leave `tx`, `emit` cuts the one reply frame, and the rest does not depend on `tx`. -/
theorem replyCutWhenTxFull : Obligations.ReplyCutWhenTxFull := by
  intro i s hp hw hs
  obtain ⟨status, data, cs, u, h, hok, hnok⟩ := exec_replies_status i s
  obtain ⟨x, hanswer⟩ := h.answer
  have hstill := h.still hs
  obtain ⟨hbytes, -⟩ := emit_atomic (f := replyFrame s.params i.cmd status data) (h.runs.params ▸ hp)
    (h.runs.txWf hp hw) hstill.slots
  refine ⟨_, status, data, hanswer, ?_, hok, hnok, fun r => ?_⟩
  · rw [State.withPs_txBytes, hbytes, State.txBytes, h.runs.params, hstill.tx]
    rfl
  · obtain ⟨t, q, ht, ht'⟩ := exec_sameOffTx i r hs
    obtain rfl := Host.Outcome.next.inj (ht.symm.trans hanswer)
    exact ⟨_, ht', rfl, rfl⟩

end Sys2Proof.Machine

/-! The main loop one event at a time: each byte before the last is one constructor of `Accumulates`, the last byte is `exec`
between a pop and the end of the Decode, and a Decode that pops nothing is its interrupt events. -/

namespace Sys2Proof

/-- The six class tags are 1 to 6 (30_encoding.md R85, R97). -/
theorem Cls.ofTag_eq_none {b : Byte} (h : b.toNat = 0 ∨ 7 ≤ b.toNat) : Cls.ofTag b = none := by
  cases hb : Cls.ofTag b with
  | none => rfl
  | some c =>
    obtain rfl := Cls.ofTag_some hb
    cases c <;> simp [Cls.tag] at h

theorem Args.toList_set (a : Args) {i : Nat} (b : Byte) (h : i < 3) : (a.set i b).toList = a.toList.set i b := by
  match i, h with
  | 0, _ | 1, _ | 2, _ => rfl

/-- Data bytes are declared by an I2C Write with a length byte that is not 0, and by nothing else (R83, R100). -/
theorem Cmd.dataLength_pos_iff {m : Cmd} {a : Args} : 0 < m.dataLength a ↔ m = .i2cWrite ∧ a.a2 ≠ 0 := by
  unfold Cmd.dataLength
  split
  next hd => simp [Cmd.hasData_iff.1 hd, Nat.pos_iff_ne_zero, BitVec.toNat_eq]
  next hd => simp [mt Cmd.hasData_iff.2 hd]

end Sys2Proof

namespace Sys2Proof.Machine

/-! ## A byte before the last -/

/-- After the arguments the data bytes come when any are declared (40_dispatcher.md R117, R118). -/
theorem afterArgs_eq (m : Cmd) (a : Args) : afterArgs m a = if 0 < m.dataLength a then .payload else .checksum := by
  cases hd : m.hasData <;> simp [afterArgs, Cmd.dataLength, hd]

/-- Settles O31: the byte is the one `Accumulates.opens` takes. -/
theorem knownClassTagOpensFrame : Obligations.KnownClassTagOpensFrame := by
  intro s b r c h ht hb
  exact step_accumulates h (.opens c ht (hb ▸ Cls.ofTag_tag c))

/-- Settles O32: no class has that tag. -/
theorem unknownClassTagDiscarded : Obligations.UnknownClassTagDiscarded := by
  intro s b r h ht hb
  exact step_accumulates h (.skipsClassTag ht (Cls.ofTag_eq_none hb))

/-- Settles O33: a command's own tag selects it in its class. -/
theorem knownDataTagSelectsCommand : Obligations.KnownDataTagSelectsCommand := by
  intro s b r m h ht hp hb
  exact step_accumulates h (.selects m.cls m ht hp (hb ▸ lookup_tag h.1 m))

/-- Settles O35: the byte is the one `Accumulates.argument` stores. -/
theorem argumentByteStored : Obligations.ArgumentByteStored := by
  intro s b r m h ht hp hop hi
  have hl : lookup s.params m.cls s.ps.op = some m := hop ▸ lookup_tag h.1 m
  refine ⟨_, _, step_accumulates h (.argument m.cls m ht hp hl hi),
    Args.toList_set _ b (Nat.lt_of_lt_of_le hi m.nfix_le), fun hmore => if_neg hmore.ne, fun hlast hm ha => ?_,
    fun hlast hnone => ?_⟩
  · rw [if_pos hlast, afterArgs_eq, if_pos (Cmd.dataLength_pos_iff.2 ⟨hm, ha⟩)]
  · rw [if_pos hlast, afterArgs_eq, if_neg (mt Cmd.dataLength_pos_iff.1 hnone)]

/-! ## The last byte -/

/-- A Decode pops its byte and takes its interrupt events; the parser, `tx` and the records are still to change. -/
theorem State.popsInto.same {s u : State} {b : Byte} (h : s.popsInto b u) :
    u.params = s.params ∧ u.ps = s.ps ∧ u.tx = s.tx ∧ u.wireOut = s.wireOut ∧ u.drvTrace = s.drvTrace := by
  obtain ⟨-, -, r, -, ⟨-, rfl⟩ | ⟨sl, es, -, rfl⟩⟩ := h
  · exact ⟨rfl, rfl, rfl, rfl, rfl⟩
  · exact ⟨rfl, rfl, rfl, rfl, rfl⟩

/-- The points passed and the end of the Decode are together every list of interrupt events it carries (20_memory.md R66). -/
theorem Points.endDecode {k : Nat} {s t : State} (h : Points k s t) :
    Points (k + t.slots.length) s (endDecode t) ∧ s.slots.take (k + t.slots.length) = s.slots := by
  refine ⟨h.trans (endDecode_points t), List.take_of_length_le ?_⟩
  rw [h.slots, List.length_drop]
  omega

/-- A byte that ends no frame: what the step with nothing scheduled did to the parser. -/
theorem step_accumulated {s t : State} {b : Byte} {r : Ring} (h : s.pops b r)
    (hne : s.ps.top = .awaitingClassTag ∨ s.ps.phase ≠ .checksum) (ht : step s = .next t) :
    ∃ x, Accumulates s.params b s.ps x ∧ t = (s.withRx r).withPs x := by
  obtain ⟨v, hv, -⟩ := andThen_next ((step_pops h).symm.trans ht)
  obtain ⟨x, hx, -⟩ | ⟨c, m, htop, hphase, -, -⟩ := decodeByte_next hv
  · exact ⟨x, hx, Host.Outcome.next.inj (ht.symm.trans (step_accumulates h hx))⟩
  · obtain h' | h' := hne
    · cases htop.symm.trans h'
    · exact absurd hphase h'

/-- Settles O37: the Decode is the pop, the instruction and its end, and the points of the last two are all its lists of
interrupt events; at every other position all of those are left to the end. -/
theorem terminalStepRunsTheInstruction : Obligations.TerminalStepRunsTheInstruction := by
  constructor
  · intro s b u m h htop hphase hop
    have hp := h.1
    obtain ⟨hparams, hps, htx, hwire, htrace⟩ := h.same
    have hl : lookup u.params m.cls u.ps.op = some m := by rw [hps, hparams, hop, lookup_tag hp]
    obtain ⟨t, k, ht, hpoints⟩ := exec_points (accumulated m s.ps b) u
    have hdecode : decodeByte b u = .next t := by
      rw [decodeByte_checksum (hps ▸ htop) (hps ▸ hphase) hl, hps, ht]
    have hend := endDecode_runs t
    obtain ⟨hall, hlists⟩ := hpoints.endDecode
    refine ⟨t, endDecode t, ht, rfl, by rw [step_popsInto h, hdecode, andThen], hend.ps, by simp [hend.drvLog], ?_, ?_,
      fun hw hc => ?_⟩
    · rw [hall.rx, hlists, hparams]
    · rw [hall.peripheral, hlists, htrace]
    · have hbytes : u.txBytes = s.txBytes := by rw [State.txBytes, htx, hparams, State.txBytes]
      have hdrains := hall.drains (hparams ▸ hp) (by rw [htx, hparams]; exact hw)
      rw [hlists, hbytes, hwire] at hdrains
      exact (hdrains hc).2
  · intro s b r t sl es h hne ht
    obtain ⟨hp, -, hslots, hh, hr⟩ := id h
    obtain ⟨x, hx, rfl⟩ := step_accumulated h hne ht
    have hinto : State.popsInto { s with schedule := .decode sl :: es } b
        { s with rx := r, schedule := es, slots := sl } := ⟨hp, hh, r, hr, .inr ⟨sl, es, rfl, rfl⟩⟩
    rw [step_popsInto hinto, Accumulates.decodeByte_eq (s := { s with rx := r, schedule := es, slots := sl }) hx, andThen,
      endDecode]
    simp only [State.withPs, State.withRx, State.withSlots, hslots]

/-! ## A Decode that pops nothing, and nothing scheduled -/

/-- Not halted, with nothing scheduled and no byte to decode, a step drains `tx` (70_reset_and_hazards.md R250, log 6). -/
theorem step_drain {s : State} (hp : s.params.ok = true) (hs : s.schedule = []) (hh : s.ps.halted = false)
    (hr : s.rx.occ = 0) : step s = .next (txDrain s) := by
  rw [step_ok hp, nextEvent, hs]
  simp [unscheduled, hh, Ring.avail, hr]

/-- Halted, with nothing scheduled, it is a turn of the Reset spin. -/
theorem step_spin {s : State} (hp : s.params.ok = true) (hs : s.schedule = []) (hh : s.ps.halted = true) :
    step s = .next (spinTurn s) := by
  rw [step_ok hp, nextEvent, hs]
  simp [unscheduled, hh]

/-- `TxDrain` touches `tx` and the wire (20_memory.md R59). -/
theorem txDrain_eq (s : State) : txDrain s = { s with tx := (txDrain s).tx, wireOut := (txDrain s).wireOut } := by
  unfold txDrain
  split <;> rfl

/-- Settles O30: a Decode that pops nothing is `mainLoop_idle`; with nothing scheduled `tx` drains, or the spin turns. -/
theorem mainLoopIdlesWhenHaltedOrEmpty : Obligations.MainLoopIdlesWhenHaltedOrEmpty := by
  intro s ⟨hp, _, htx, _, hslots, _⟩
  refine ⟨fun sl es hidle hs => ?_, fun ⟨hs, hr, ht, hh⟩ => ?_, fun hs hr hh => ?_, fun hs hh => ?_⟩
  · have hruns := runIrqs_runs sl.flatten { s with schedule := es }
    have hlog : (runIrqs sl.flatten { s with schedule := es }).drvLog = s.drvLog := by
      rw [hruns.drvLog, List.append_nil]
      rfl
    refine ⟨_, rfl, ?_, hruns.ps, hlog, hruns.sent hp htx, hruns.schedule⟩
    rw [step_decode hp hs, mainLoop_idle (s := (s.withSchedule es).withSlots sl) (hidle.imp_right Ring.pop_empty),
      endDecode]
    simp only [State.withSlots, State.withSchedule, hslots]
  · rw [step_drain hp hs hh hr, txDrain_empty ht]
  · refine ⟨_, step_drain hp hs hh hr, txDrain_eq s, fun b q hb => ?_⟩
    obtain ⟨r, hbytes, hdrain⟩ := txDrain_cons hp htx hb
    rw [hdrain]
    exact ⟨hbytes, rfl⟩
  · have hruns := txDrain_runs s
    refine ⟨_, step_spin hp hs hh, ?_⟩
    obtain ⟨-, he⟩ | ⟨-, he⟩ := spinTurn_cases hh <;> rw [he]
    · exact ⟨restart_drvLog s, rfl, .inl ⟨restart_atReset s, rfl⟩⟩
    · refine ⟨by simp [hruns.drvLog], hruns.params, .inr ⟨hruns.ps, ?_, hruns.sent hp htx⟩⟩
      rw [txDrain_eq]
      rfl

end Sys2Proof.Machine

/-! A whole frame on the line. `Feeds` chains the bytes before the last; a frame's body feeds the parser into `holding`, where
the accumulated instruction runs as the one that was sent. -/

namespace Sys2Proof.Machine

/-! ## Bytes one after the other -/

/-- The bytes `bs`, none of which ends a frame, make the parser state `x` of `ps`. -/
inductive Feeds (p : Params) : List Byte → Parser → Parser → Prop where
  | nil (ps : Parser) : Feeds p [] ps ps
  | cons {b : Byte} {bs : List Byte} {ps y x : Parser} (h : Accumulates p b ps y) (hs : Feeds p bs y x) :
      Feeds p (b :: bs) ps x

theorem Feeds.append {p : Params} {bs cs : List Byte} {ps y x : Parser} (h : Feeds p bs ps y) (g : Feeds p cs y x) :
    Feeds p (bs ++ cs) ps x := by
  induction h with
  | nil => exact g
  | cons hb _ ih => exact .cons hb (ih g)

/-- The first bytes of a chain are a chain. -/
theorem Feeds.take {p : Params} {bs : List Byte} {ps x : Parser} (h : Feeds p bs ps x) (j : Nat) :
    ∃ y, Feeds p (bs.take j) ps y := by
  induction h generalizing j with
  | nil ps => exact ⟨ps, by rw [List.take_nil]; exact .nil ps⟩
  | @cons b bs ps y x hb _ ih =>
    cases j with
    | zero => exact ⟨ps, .nil ps⟩
    | succ j =>
      obtain ⟨z, hz⟩ := ih j
      exact ⟨z, .cons hb hz⟩

/-- The next steps are Decodes that the environment leaves alone: legal parameters, `rx` as 10_state.md R31 says, not halted,
nothing scheduled and no interrupt event left over. -/
structure State.Ready (s : State) : Prop where
  params : s.params.ok = true
  rxWf : s.rx.wf s.params.rxCap = true
  schedule : s.schedule = []
  slots : s.slots = []
  running : s.ps.halted = false

/-- With a byte waiting, such a state pops it. -/
theorem State.Ready.pops {s : State} {b : Byte} {rest : List Byte} (h : s.Ready) (hb : s.rxBytes = b :: rest) :
    ∃ r, s.pops b r ∧ r.wf s.params.rxCap = true ∧ r.bytes s.params.rxCap = rest := by
  have hocc : s.rx.occ ≠ 0 := fun h0 => List.cons_ne_nil b rest (hb.symm.trans (Ring.bytes_eq_nil.2 h0))
  obtain ⟨b', r, hr⟩ := Ring.pop_isSome (cap := s.params.rxCap) (Nat.pos_of_ne_zero hocc)
  obtain ⟨hbytes, hwf, -⟩ := Ring.pop_some (Params.ok_iff.1 h.params).1 h.rxWf hr
  obtain ⟨rfl, rfl⟩ := List.cons.inj (hb.symm.trans hbytes)
  exact ⟨r, ⟨h.params, h.schedule, h.slots, h.running, hr⟩, hwf, rfl⟩

/-- A run begins with its first step. -/
theorem run_succ {s t : State} (h : step s = .next t) (n : Nat) : core.run (n + 1) s = core.run n t := by
  have hcore : core.step s = .next t := h
  simp only [Host.Core.run, hcore]

/-- A run goes on from where its first part leads. -/
theorem run_add {j : Nat} {s t : State} (h : core.run j s = .next t) (k : Nat) : core.run (j + k) s = core.run k t := by
  induction j generalizing s with
  | zero =>
    cases h
    rw [Nat.zero_add]
  | succ j ih =>
    simp only [Host.Core.run] at h
    split at h
    next u hu =>
      rw [Nat.succ_add, run_succ hu]
      exact ih h
    all_goals cases h

/-- One step per byte: a chain of bytes at the front of `rx` is popped and changes the parser besides, and nothing else. -/
theorem Feeds.run {p : Params} {bs : List Byte} {ps x : Parser} (h : Feeds p bs ps x) :
    ∀ {s : State} {rest : List Byte}, s.Ready → s.params = p → s.ps = ps → s.rxBytes = bs ++ rest →
      ∃ r, core.run bs.length s = .next ((s.withRx r).withPs x) ∧ ((s.withRx r).withPs x).Ready ∧
        r.bytes s.params.rxCap = rest := by
  induction h with
  | nil ps =>
    rintro s rest hs - rfl hbytes
    exact ⟨s.rx, rfl, hs, hbytes⟩
  | @cons b bs ps y x hb _ ih =>
    rintro s rest hs rfl rfl hbytes
    obtain ⟨r, hpops, hwf, hrest⟩ := hs.pops hbytes
    have hready : ((s.withRx r).withPs y).Ready :=
      ⟨hs.params, hwf, hs.schedule, hs.slots, hb.halted.trans hs.running⟩
    obtain ⟨r', hrun, hready', hrest'⟩ := ih hready rfl rfl hrest
    exact ⟨r', (run_succ (step_accumulates hpops hb) _).trans hrun, hready', hrest'⟩

/-! ## The bytes of a frame before its last -/

/-- Argument bytes, one after the other (40_dispatcher.md R116 to R118). -/
theorem feeds_args {p : Params} {c : Cls} {m : Cmd} {args : List Byte} {ps : Parser} (ht : ps.top = .inSub c)
    (hl : lookup p c ps.op = some m) (hi : ps.idx + args.length = m.nfix)
    (hp : ps.phase = if ps.idx = m.nfix then afterArgs m ps.args else .args) :
    Feeds p args ps { ps with
      args := storeArgs ps.args ps.idx args, idx := m.nfix, csum := ps.csum + checksum args,
      phase := afterArgs m (storeArgs ps.args ps.idx args) } := by
  induction args generalizing ps with
  | nil =>
    have hi : ps.idx = m.nfix := hi
    rw [if_pos hi] at hp
    simp only [storeArgs, ← hp, ← hi, checksum_nil, BitVec.add_zero]
    exact .nil ps
  | cons b args ih =>
    rw [List.length_cons] at hi
    have hlt : ps.idx < m.nfix := by omega
    rw [if_neg hlt.ne] at hp
    have hrest := ih (ps := { ps with
      args := ps.args.set ps.idx b, idx := ps.idx + 1, csum := ps.csum + b,
      phase := if ps.idx + 1 = m.nfix then afterArgs m (ps.args.set ps.idx b) else .args }) ht hl (by simp only; omega) rfl
    rw [checksum_cons, ← BitVec.add_assoc]
    exact .cons (.argument c m ht hp hl hlt) hrest

/-- Data bytes, one after the other (R119); a command that declares none has none. -/
theorem feeds_data {p : Params} {c : Cls} {m : Cmd} {data : List Byte} {ps : Parser} (ht : ps.top = .inSub c)
    (hl : lookup p c ps.op = some m) (hc : ps.cnt + data.length = m.dataLength ps.args)
    (hp : ps.phase = if ps.cnt < m.dataLength ps.args then .payload else .checksum) :
    Feeds p data ps { ps with
      buf := storeData ps.buf ps.cnt data, cnt := m.dataLength ps.args, csum := ps.csum + checksum data,
      phase := .checksum } := by
  induction data generalizing ps with
  | nil =>
    have hc : ps.cnt = m.dataLength ps.args := hc
    rw [if_neg (Nat.not_lt.2 hc.ge)] at hp
    simp only [storeData, ← hp, ← hc, checksum_nil, BitVec.add_zero]
    exact .nil ps
  | cons b data ih =>
    rw [List.length_cons] at hc
    have hlt : ps.cnt < m.dataLength ps.args := by omega
    obtain ⟨rfl, -⟩ := Cmd.dataLength_pos_iff.1 (Nat.zero_lt_of_lt hlt)
    rw [if_pos hlt] at hp
    have hphase : (if ps.cnt + 1 = ps.args.a2.toNat then Phase.checksum else .payload) =
        if ps.cnt + 1 < ps.args.a2.toNat then .payload else .checksum := by
      have hle : ps.cnt + 1 ≤ ps.args.a2.toNat := hlt
      by_cases hlast : ps.cnt + 1 = ps.args.a2.toNat
      · rw [if_pos hlast, if_neg hlast.not_lt]
      · rw [if_neg hlast, if_pos (lt_of_le_of_ne hle hlast)]
    have hrest := ih (ps := { ps with
      buf := if ps.cnt < i2cWrCap then Memory.write ps.buf ps.cnt b else ps.buf,
      cnt := ps.cnt + 1, csum := ps.csum + b,
      phase := if ps.cnt + 1 = ps.args.a2.toNat then .checksum else .payload }) ht hl (by simp only; omega) hphase
    rw [checksum_cons, ← BitVec.add_assoc]
    exact .cons (.data c ht hp hl hlt) hrest

/-- The arguments stored are those of the frame, as far as the command reads them. -/
theorem dataLength_storeArgs (i : Instr) (a : Args) :
    i.cmd.dataLength (storeArgs a 0 i.argBytes) = i.cmd.dataLength (Args.ofList i.argBytes) := by
  cases i <;> rfl

theorem assemble_storeArgs (i : Instr) (a : Args) (data : List Byte) (k : Byte) :
    assemble i.cmd (storeArgs a 0 i.argBytes) data k = assemble i.cmd (Args.ofList i.argBytes) data k := by
  cases i <;> rfl

/-- A frame's bytes but the last put the parser where `placeInstr` puts it: at `holding`. -/
theorem feeds_body {p : Params} {i : Instr} {ps : Parser} (hp : p.ok = true) (hi : i.wellFormed = true)
    (ht : ps.top = .awaitingClassTag) (hh : ps.halted = false) : Feeds p (i.body p) ps (holding p i ps) := by
  have hl := lookup_tag hp i.cmd
  have hlen : i.cmd.dataLength (storeArgs ps.args 0 i.argBytes) = i.dataBytes.length :=
    (dataLength_storeArgs i _).trans (Instr.dataBytes_length hi).symm
  have hargs := feeds_args (p := p) (c := i.cmd.cls) (m := i.cmd) (args := i.argBytes) (ps := { ps with
    top := .inSub i.cmd.cls, phase := if i.cmd.nfix = 0 then .checksum else .args, op := i.cmd.tag p, idx := 0, cnt := 0,
    csum := i.cmd.cls.tag + i.cmd.tag p }) rfl hl (by simp) (by
      by_cases h0 : i.cmd.nfix = 0
      · simp [h0, afterArgs_of_nfix_zero]
      · simp [h0, Ne.symm h0])
  have hdata := hargs.append (feeds_data (m := i.cmd) (data := i.dataBytes) rfl hl (by simp [hlen]) (afterArgs_eq _ _))
  have hframe := Feeds.cons (.opens i.cmd.cls ht (Cls.ofTag_tag _))
    (.cons (.selects i.cmd.cls i.cmd rfl rfl hl) hdata)
  simpa only [holding, Instr.body, List.cons_append, List.nil_append, checksum_cons, checksum_append, BitVec.add_assoc,
    hlen, ← hh] using hframe

/-! ## The instruction accumulated -/

/-- Data bytes stored in the buffer read back, behind those before them (20_memory.md, R119). -/
theorem storeData_reads {data : List Byte} {m : Memory} {j : Nat} (hw : Memory.wf m = true)
    (hroom : j + data.length ≤ i2cWrCap) :
    (List.range (j + data.length)).map (Memory.read (storeData m j data)) = (List.range j).map (Memory.read m) ++ data := by
  induction data generalizing m j with
  | nil => simp [storeData]
  | cons b data ih =>
    rw [List.length_cons] at hroom ⊢
    have hj : j < i2cWrCap := by omega
    rw [storeData, if_pos hj, Nat.add_comm data.length 1, ← Nat.add_assoc,
      ih (Memory.write_wf j b hw) (by omega), Memory.map_read_write_succ j b hw, List.append_assoc]
    rfl

/-- The range check reads the arguments alone, and not the data bytes (40_dispatcher.md R125). -/
theorem valid_assemble (p : Params) (i : Instr) (data : List Byte) :
    valid p (assemble i.cmd (Args.ofList i.argBytes) data i.lastByte) = valid p i := by
  cases i <;> rfl

/-- A well-formed instruction in range has no more data bytes than the buffer holds (44_i2c.md R172). -/
theorem dataBytes_length_of_valid {p : Params} {i : Instr} (hi : i.wellFormed = true) (hv : valid p i = true) :
    i.dataBytes.length ≤ i2cWrCap := by
  cases i with
  | i2cWrite addr off n data k =>
    have hlen : data.length = n.toNat := by simpa [Instr.wellFormed] using hi
    have hle : n.toNat ≤ i2cWrCap := by simpa [valid] using hv
    exact hlen.trans_le hle
  | _ => exact Nat.zero_le _

/-- After a frame's body the instruction accumulated with its last byte runs as the one sent: it is that instruction, or an
I2C Write too long for the buffer, which is refused for its length alone (log 15). -/
theorem exec_accumulated_holding {i : Instr} {ps : Parser} {s : State} (hi : i.wellFormed = true)
    (hw : Memory.wf ps.buf = true) :
    exec (accumulated i.cmd (holding s.params i ps) i.lastByte) s = exec i s := by
  have hacc : accumulated i.cmd (holding s.params i ps) i.lastByte =
      assemble i.cmd (Args.ofList i.argBytes) (keptData i.cmd (holding s.params i ps)) i.lastByte :=
    assemble_storeArgs i _ _ _
  rw [hacc]
  by_cases hlen : i.dataBytes.length ≤ i2cWrCap
  · have hkept : keptData i.cmd (holding s.params i ps) = i.dataBytes := by
      have hdecl : i.cmd.dataLength (holding s.params i ps).args = i.dataBytes.length :=
        (dataLength_storeArgs i _).trans (Instr.dataBytes_length hi).symm
      rw [keptData, hdecl, Nat.min_eq_left hlen]
      simpa [holding] using storeData_reads (j := 0) hw (by simpa using hlen)
    rw [hkept, assemble_self]
  · have hbad : ¬valid s.params i = true := fun hv => hlen (dataBytes_length_of_valid hi hv)
    rw [exec_nok fun hg => hbad hg.2, exec_nok fun hg => hbad (valid_assemble s.params i _ ▸ hg.2), assemble_cmd]

/-! ## The frame -/

theorem State.Inv.ready {s : State} (h : s.Inv) (hs : s.schedule = []) (hh : s.ps.halted = false) : s.Ready := by
  obtain ⟨hp, hrx, -, -, hslots, -⟩ := h
  exact ⟨hp, hrx, hs, hslots, hh⟩

/-- At `holding` the step that pops the frame's last byte is the instruction (R120). -/
theorem step_holding {s : State} {i : Instr} {ps : Parser} {r : Ring} (hi : i.wellFormed = true)
    (hw : Memory.wf ps.buf = true) (hps : s.ps = holding s.params i ps) (h : s.pops i.lastByte r) :
    step s = exec i (s.withRx r) := by
  obtain ⟨hp, -, hslots, -, -⟩ := id h
  have hdecode : decodeByte i.lastByte (s.withRx r) = exec i (s.withRx r) := by
    rw [decodeByte_checksum (s := s.withRx r) (congrArg Parser.top hps) (congrArg Parser.phase hps)
      ((congrArg (lookup s.params _) (congrArg Parser.op hps)).trans (lookup_tag hp i.cmd))]
    rw [State.withRx_ps, hps]
    exact exec_accumulated_holding (s := s.withRx r) hi hw
  obtain ⟨t, ht⟩ := exec_answers i (s.withRx r)
  obtain ⟨-, -, hleft⟩ := exec_quiet ht hslots
  rw [step_pops h, hdecode, ht, andThen, endDecode_nil hleft]

/-- Settles O38: the body feeds the parser into `holding`. -/
theorem frameOnTheLineRunsItsInstruction : Obligations.FrameOnTheLineRunsItsInstruction := by
  intro s i rest hinv hs ht hh hi hbytes
  have hready := hinv.ready hs hh
  obtain ⟨hp, -, -, hok, -, -⟩ := hinv
  obtain ⟨-, -, hw, -, -, -⟩ := parserOk_iff.1 hok
  rw [encode, List.append_assoc] at hbytes
  obtain ⟨r₀, hrun, hready', hlast⟩ := (feeds_body hp hi ht hh).run hready rfl rfl hbytes
  obtain ⟨r, hpops, -, hrest⟩ := hready'.pops hlast
  refine ⟨(s.withRx r₀).withPs (holding s.params i s.ps), r, ?_, rfl, rfl, rfl, rfl, hready'.slots, rfl, hrest,
    step_holding hi hw rfl hpops⟩
  simpa [encode] using hrun

/-- Settles O39: the steps before the last are `Feeds.run`, the last is the instruction of O38, whose reply and frame are
those of every command. -/
theorem oneFrameInOneReplyOut : Obligations.OneFrameInOneReplyOut := by
  intro s i rest hinv hs ht hh hi hbytes
  obtain ⟨u, r, hrun, hparams, htx, -, -, hslots, hcsum, hrest, hstep⟩ :=
    frameOnTheLineRunsItsInstruction s i rest hinv hs ht hh hi hbytes
  have hready := hinv.ready hs hh
  obtain ⟨hp, -, hw, -, -, -⟩ := hinv
  constructor
  · intro j hj
    have hle : j ≤ (i.body s.params).length := by
      simp only [encode, List.length_append, List.length_singleton] at hj
      omega
    obtain ⟨y, hy⟩ := (feeds_body hp hi ht hh).take j
    rw [encode, ← List.take_append_drop j (i.body s.params), List.append_assoc, List.append_assoc] at hbytes
    obtain ⟨r', hrun', -, -⟩ := hy.run hready rfl rfl hbytes
    rw [List.length_take_of_le hle] at hrun'
    exact ⟨_, hrun', rfl, rfl, rfl⟩
  · obtain ⟨t, status, data, hexec, hreply, hok, hnok, -⟩ := replyCutWhenTxFull i { u with rx := r }
      (hparams ▸ hp) (by simp only [htx, hparams]; exact hw) hslots
    obtain ⟨hrx, -, -⟩ := exec_quiet hexec hslots
    have hterm := exec_terminates hexec
    have hpos : (encode s.params i).length = (encode s.params i).length - 1 + 1 := by simp [encode]
    refine ⟨t, status, data, ?_, by rw [hterm.ps]; rfl, ?_, ?_, ?_, ?_⟩
    · rw [hpos, run_add hrun, run_succ (hstep.trans hexec)]
      rfl
    · rw [State.rxBytes, hrx, hterm.keeps.params, hparams]
      exact hrest
    · simpa only [State.txBytes, htx, hparams] using hreply
    · simpa only [hcsum, hparams] using hok
    · simpa only [hcsum, hparams] using hnok

end Sys2Proof.Machine

/-! Progress and rest. Every step of a state with `Inv` answers, and takes the oldest event off the schedule; after those the
Reset spin ends in a restart, each Decode leaves one byte fewer in `rx`, and each TxDrain one fewer in `tx`. -/

namespace Sys2Proof.Machine

/-! ## Every step answers -/

/-- A parser position that a run can reach has a rule (40_dispatcher.md R130). -/
theorem decodeByte_answers (b : Byte) {s : State} (h : parserOk s.params s.ps = true) :
    ∃ t, decodeByte b s = .next t := by
  have hd := decodeByte_cases b s
  generalize decodeByte b s = a at hd ⊢
  cases hd with
  | accumulates ps hh => exact ⟨_, rfl⟩
  | runs c m ht hp hl => exact exec_answers _ _
  | stops hn => exact absurd (h.symm.trans hn) (by decide)

theorem mainLoop_answers {s : State} (h : parserOk s.params s.ps = true) : ∃ t, mainLoop s = .next t := by
  obtain hidle | ⟨hh, b, r, hr⟩ := idle_or_pops s
  · exact ⟨_, mainLoop_idle hidle⟩
  · obtain ⟨v, hv⟩ := decodeByte_answers b (s := s.withRx r) h
    exact ⟨endDecode v, by rw [mainLoop_pop hh hr, hv, andThen]⟩

/-- No input makes the block fault (60_exceptions.md R219). -/
theorem step_answers {s : State} (h : s.Inv) : ∃ t, step s = .next t := by
  obtain ⟨hp, -, -, hok, -, -⟩ := h
  rw [step_ok hp]
  unfold nextEvent
  split
  · unfold unscheduled
    split
    · exact ⟨_, rfl⟩
    · split
      · exact mainLoop_answers hok
      · exact ⟨_, rfl⟩
  · exact ⟨_, rfl⟩
  · exact mainLoop_answers (s := (s.withSchedule _).withSlots _) hok
  · exact ⟨_, rfl⟩
  · exact ⟨_, rfl⟩

/-! ## The schedule -/

theorem decodeByte_schedule {b : Byte} {s t : State} (h : decodeByte b s = .next t) : t.schedule = s.schedule := by
  obtain ⟨x, -, rfl⟩ | ⟨c, m, -, -, -, he⟩ := decodeByte_next h
  · rfl
  · exact exec_schedule he

theorem mainLoop_schedule {s t : State} (h : mainLoop s = .next t) : t.schedule = s.schedule := by
  obtain hidle | ⟨hh, b, r, hr⟩ := idle_or_pops s
  · obtain rfl := Host.Outcome.next.inj ((mainLoop_idle hidle).symm.trans h)
    exact (endDecode_runs s).schedule
  · obtain ⟨v, hv, rfl⟩ := andThen_next ((mainLoop_pop hh hr).symm.trans h)
    exact (endDecode_runs v).schedule.trans (decodeByte_schedule (s := s.withRx r) hv)

/-- What happens with nothing scheduled schedules nothing. -/
theorem unscheduled_schedule {s t : State} (h : unscheduled s = .next t) : t.schedule = s.schedule := by
  obtain ⟨hh, rfl⟩ | ⟨-, -, h⟩ | ⟨-, -, rfl⟩ := unscheduled_cases h
  · obtain ⟨-, he⟩ | ⟨-, he⟩ := spinTurn_cases hh <;> rw [he]
    · rfl
    · exact (txDrain_runs s).schedule
  · exact mainLoop_schedule h
  · exact (txDrain_runs s).schedule

/-- A step takes the oldest event off the schedule (10_state.md R42). -/
theorem step_schedule {s t : State} (h : step s = .next t) : t.schedule = s.schedule.tail := by
  obtain ⟨-, ⟨hs, h⟩ | ⟨e, es, hs, rfl⟩ | ⟨sl, es, hs, h⟩ | ⟨es, hs, rfl⟩ | ⟨es, hs, rfl⟩⟩ := step_cases h <;> rw [hs]
  · exact (unscheduled_schedule h).trans hs
  · exact (runIrq_runs e _).schedule
  · exact mainLoop_schedule h
  · unfold watchdogReset
    split <;> rfl
  · rfl

/-! ## Coming to rest -/

/-- Some number of steps leads to rest, inside the invariant. -/
def State.ReachesRest (s : State) : Prop :=
  ∃ (n : Nat) (t : State), core.run n s = .next t ∧ t.AtRest ∧ t.Inv

theorem State.ReachesRest.of_atRest {s : State} (h : s.AtRest) (hinv : s.Inv) : s.ReachesRest :=
  ⟨0, s, rfl, h, hinv⟩

theorem State.ReachesRest.of_step {s t : State} (h : step s = .next t) (ht : t.ReachesRest) : s.ReachesRest := by
  obtain ⟨n, u, hrun, hrest⟩ := ht
  exact ⟨n + 1, u, (run_succ h n).trans hrun, hrest⟩

/-- The Reset spin ends: each turn takes one from the watchdog's wait, and the restart is at rest (60_exceptions.md R214). -/
theorem reachesRest_of_halted {s : State} (hinv : s.Inv) (hs : s.schedule = []) (hh : s.ps.halted = true) :
    s.ReachesRest := by
  induction hk : Config.watchdogTurns s.drvTrace - s.spin using Nat.strong_induction_on generalizing s with
  | _ k ih =>
    have hstep := step_spin hinv.1 hs hh
    have hinv' := everyStepKeepsInv _ _ hinv hstep
    refine .of_step hstep ?_
    obtain ⟨-, he⟩ | ⟨hlt, he⟩ := spinTurn_cases hh <;> rw [he] at hinv' ⊢
    · exact .of_atRest ⟨hs, rfl, rfl, rfl⟩ hinv'
    · have hruns := txDrain_runs s
      refine ih _ ?_ hinv' (hruns.schedule.trans hs) ((congrArg Parser.halted hruns.ps).trans hh) rfl
      rw [State.withSpin_drvTrace, txDrain_drvTrace, State.withSpin_spin]
      omega

/-- `tx` drains, one byte a step. -/
theorem reachesRest_of_rx_empty {s : State} (hinv : s.Inv) (hs : s.schedule = []) (hh : s.ps.halted = false)
    (hr : s.rx.occ = 0) : s.ReachesRest := by
  induction hn : s.tx.occ generalizing s with
  | zero => exact .of_atRest ⟨hs, hr, hn, hh⟩ hinv
  | succ n ih =>
    have hstep := step_drain hinv.1 hs hh hr
    have hinv' := everyStepKeepsInv _ _ hinv hstep
    obtain ⟨hp, -, htx, -⟩ := hinv
    obtain ⟨b, r, hpop⟩ := Ring.pop_isSome (cap := s.params.txCap) (Nat.lt_of_lt_of_eq n.succ_pos hn.symm)
    obtain ⟨-, -, hocc⟩ := Ring.pop_some (Params.ok_iff.1 hp).2.1 htx hpop
    have hdrain : txDrain s = (s.withTx r).wire b := by simp only [txDrain, hpop]
    refine .of_step hstep ?_
    rw [hdrain] at hinv' ⊢
    exact ih hinv' hs hh hr (by simp only [State.wire_tx, State.withTx_tx]; omega)

/-- A Decode with no interrupt event inside it leaves one byte fewer in `rx` (40_dispatcher.md R129). -/
theorem step_pops_rx {s t : State} {b : Byte} {r : Ring} (h : s.pops b r) (ht : step s = .next t) : t.rx = r := by
  obtain ⟨-, -, hslots, -, -⟩ := id h
  obtain ⟨v, hv, rfl⟩ := andThen_next ((step_pops h).symm.trans ht)
  obtain ⟨x, -, rfl⟩ | ⟨c, m, -, -, -, he⟩ := decodeByte_next hv
  · rw [endDecode_nil (s := (s.withRx r).withPs x) hslots]
    rfl
  · obtain ⟨hrx, -, hleft⟩ := exec_quiet he hslots
    rw [endDecode_nil hleft, hrx]
    rfl

/-- `rx` is decoded, one byte a step; what the bytes start comes to rest too. -/
theorem reachesRest_of_unscheduled {s : State} (hinv : s.Inv) (hs : s.schedule = []) : s.ReachesRest := by
  induction hn : s.rx.occ generalizing s with
  | zero =>
    cases hh : s.ps.halted with
    | true => exact reachesRest_of_halted hinv hs hh
    | false => exact reachesRest_of_rx_empty hinv hs hh hn
  | succ n ih =>
    cases hh : s.ps.halted with
    | true => exact reachesRest_of_halted hinv hs hh
    | false =>
      obtain ⟨t, ht⟩ := step_answers hinv
      have hinv' := everyStepKeepsInv _ _ hinv ht
      obtain ⟨hp, hrx, -, -, hslots, -⟩ := hinv
      obtain ⟨b, r, hpop⟩ := Ring.pop_isSome (cap := s.params.rxCap) (Nat.lt_of_lt_of_eq n.succ_pos hn.symm)
      obtain ⟨-, -, hocc⟩ := Ring.pop_some (Params.ok_iff.1 hp).1 hrx hpop
      have hrx' := step_pops_rx ⟨hp, hs, hslots, hh, hpop⟩ ht
      exact .of_step ht (ih hinv' (by rw [step_schedule ht, hs]; rfl) (by rw [hrx']; omega))

/-- The schedule is finite, and each step takes one event from it. -/
theorem reachesRest {s : State} (hinv : s.Inv) : s.ReachesRest := by
  induction hs : s.schedule generalizing s with
  | nil => exact reachesRest_of_unscheduled hinv hs
  | cons e es ih =>
    obtain ⟨t, ht⟩ := step_answers hinv
    exact .of_step ht (ih (everyStepKeepsInv _ _ hinv ht) (by rw [step_schedule ht, hs]; rfl))

/-- Settles O20: progress is `step_answers`, and every run comes to rest. -/
theorem noInputFaults : Obligations.NoInputFaults :=
  fun _ h => ⟨step_answers h, reachesRest h⟩

end Sys2Proof.Machine

/-! The results of the commands (41_misc.md). `RepliedWhole` says what a command leaves when its reply fits `tx`:
`Runs.replyOk_repliedWhole` and `replyNok_repliedWhole` are its two outcomes, and the Misc commands are these with their
driver calls. -/

namespace Sys2Proof.Machine

/-! ## A reply that fits -/

/-- Room for a reply is room for a shorter one. -/
theorem State.canReply.mono {s : State} {m n : Nat} (h : s.canReply n) (hmn : m ≤ n) : s.canReply m := by
  obtain ⟨hp, hw, hroom⟩ := h
  exact ⟨hp, hw, (Nat.add_le_add_left hmn _).trans hroom⟩

/-- From `s` to `t` the driver calls `cs` were made, then the reply `f` was stored whole and the parser returned to awaiting
a class tag, interrupt events aside (40_dispatcher.md R120 to R124). -/
structure RepliedWhole (cs : List DrvCall) (f : List Byte) (s t : State) : Prop where
  ps : t.ps = { s.ps with top := .awaitingClassTag }
  drvLog : t.drvLog = s.drvLog ++ cs
  sent : t.sent = s.sent ++ f

/-- The driver calls only let `tx` drain, so a reply that fits before them fits after them. -/
theorem Runs.repliedWhole {cs : List DrvCall} {f : List Byte} {s u : State} (h : Runs cs s u)
    (hroom : s.canReply f.length) : RepliedWhole cs f s (awaitNext (emit f u)) := by
  obtain ⟨hp, hw, hfits⟩ := hroom
  have hemits := emit_emits f u
  have hfits' : u.tx.occ + f.length ≤ u.params.txCap := by
    rw [h.params]
    exact (Nat.add_le_add_right h.occ _).trans hfits
  refine ⟨by rw [awaitNext_ps, hemits.ps, h.ps], hemits.drvLog.trans h.drvLog, ?_⟩
  rw [awaitNext, State.withPs_sent, hemits.sent (h.params ▸ hp) (h.txWf hp hw) hfits', h.sent hp hw]

/-- The OK reply with its data, after the driver calls that drew them (R122). -/
theorem Runs.replyOk_repliedWhole {cs : List DrvCall} {data : List Byte} {s u : State} (m : Cmd) (h : Runs cs s u)
    (hroom : s.canReply (4 + data.length)) : RepliedWhole cs (okFrame s.params m data) s (replyOk m data u) := by
  rw [replyOk, h.params]
  exact h.repliedWhole (by rwa [okFrame_eq_replyFrame, replyFrame_length])

/-- The four bytes of an OK reply without data (R122). -/
theorem okFrame_nil (p : Params) (m : Cmd) :
    okFrame p m [] = [m.cls.tag, m.tag p, 1, m.cls.tag + 1 + m.tag p] := by
  simp [okFrame, frameOf, statusOk, BitVec.add_assoc, BitVec.add_comm 1#8]

/-- The four bytes of a NOK reply (R123). -/
theorem nokFrame_eq (p : Params) (m : Cmd) : nokFrame p m = [m.cls.tag, m.tag p, 0, m.cls.tag + m.tag p] := by
  simp [nokFrame, frameOf, statusNok]

/-- The NOK reply, with no driver call (R123). -/
theorem replyNok_repliedWhole {s : State} (m : Cmd) (hroom : s.canReply 4) :
    RepliedWhole [] [m.cls.tag, m.tag s.params, 0, m.cls.tag + m.tag s.params] s (replyNok m s) := by
  rw [← nokFrame_eq]
  exact (Runs.refl s).repliedWhole hroom

theorem RepliedWhole.noCall {f : List Byte} {s t : State} (h : RepliedWhole [] f s t) : t.drvLog = s.drvLog := by
  simpa using h.drvLog

/-! ## The Misc commands -/

/-- The data tag of Misc Reset is fixed (30_encoding.md R86, R87). -/
theorem tag_miscReset_eq_one {p : Params} (h : p.ok = true) : Cmd.miscReset.tag p = 1 := by
  obtain ⟨-, -, -, hfixed⟩ := Params.ok_iff.1 h
  simp only [Params.tagsFixed, Bool.and_eq_true, beq_iff_eq] at hfixed
  obtain ⟨⟨hreset, -⟩, -⟩ := hfixed
  exact hreset

/-- Settles O47: no driver call comes before its reply, and after a good one `halted` is set. -/
theorem miscResetRepliesThenHalts : Obligations.MiscResetRepliesThenHalts := by
  intro s k hroom
  have htag := tag_miscReset_eq_one hroom.1
  by_cases hk : k = s.ps.csum
  · have h := (Runs.refl s).replyOk_repliedWhole (data := []) .miscReset hroom
    rw [okFrame_nil, htag] at h
    refine ⟨_, if_pos hk, h.noCall, fun _ => ⟨?_, h.sent⟩, fun hn => absurd hk hn⟩
    rw [halt, State.withPs_ps, h.ps]
  · have h := replyNok_repliedWhole .miscReset hroom
    rw [htag] at h
    exact ⟨_, if_neg hk, h.noCall, fun hg => absurd hg hk, fun _ => ⟨h.ps, h.sent⟩⟩

/-- Settles O48: the reply's data are read off the parameters, with no driver call. -/
theorem miscGetIdRepliesBoardId : Obligations.MiscGetIdRepliesBoardId := by
  intro s k hroom
  rw [exec, execMiscGetId]
  by_cases hk : k = s.ps.csum
  · have h := (Runs.refl s).replyOk_repliedWhole (data := [hi8 s.params.boardId, lo8 s.params.boardId]) .miscGetId hroom
    exact ⟨_, terminal_ok hk rfl, h.noCall, h.ps, fun _ => h.sent, fun hn => absurd hk hn⟩
  · have h := replyNok_repliedWhole .miscGetId (hroom.mono (by decide))
    exact ⟨_, terminal_nok fun hg => hk hg.1, h.noCall, h.ps, fun hg => absurd hg hk, fun _ => h.sent⟩

/-- Settles O49: the reply's data are the two bytes of the value that the logged call drew. -/
theorem miscGetTempRepliesReading : Obligations.MiscGetTempRepliesReading := by
  intro s k hroom
  rw [exec, execMiscGetTemp]
  by_cases hk : k = s.ps.csum
  · have h := (drvTempSample_runs s).replyOk_repliedWhole
      (data := [hi8 (drvTempSample s).1, lo8 (drvTempSample s).1]) .miscGetTemp hroom
    exact ⟨_, terminal_ok hk rfl, h.ps, fun _ => ⟨_, h.drvLog, h.sent⟩, fun hn => absurd hk hn⟩
  · have h := replyNok_repliedWhole .miscGetTemp (hroom.mono (by decide))
    exact ⟨_, terminal_nok fun hg => hk hg.1, h.ps, fun hg => absurd hg hk, fun _ => ⟨h.noCall, h.sent⟩⟩

end Sys2Proof.Machine

/-! The results of the GPIO commands (42_gpio.md). `terminal_replies` joins the two outcomes of a terminal step whose reply
fits `tx`, and `terminal_drvCall_replies` is that for the commands of one driver call and no result data. -/

namespace Sys2Proof.Machine

/-! ## A terminal step whose reply fits -/

/-- With room for the longer of its replies a terminal step answers (40_dispatcher.md R120): on a good checksum and operands
in range, said as `P`, the driver calls and the OK reply, otherwise the NOK reply and no call. -/
theorem terminal_replies {m : Cmd} {k : Byte} {r : Bool} {P : Prop} {run : State → List Byte × State} {s : State}
    {cs : List DrvCall} (hr : r = true ↔ P) (runs : Runs cs s (run s).2)
    (hroom : s.canReply (4 + (run s).1.length)) :
    ∃ t, terminal m k r run s = .next t ∧ t.ps = { s.ps with top := .awaitingClassTag } ∧
      (k = s.ps.csum ∧ P → t.drvLog = s.drvLog ++ cs ∧ t.sent = s.sent ++ okFrame s.params m (run s).1) ∧
      (¬(k = s.ps.csum ∧ P) → t.drvLog = s.drvLog ∧
        t.sent = s.sent ++ [m.cls.tag, m.tag s.params, 0, m.cls.tag + m.tag s.params]) := by
  by_cases hg : k = s.ps.csum ∧ P
  · have h := runs.replyOk_repliedWhole m hroom
    exact ⟨_, terminal_ok hg.1 (hr.2 hg.2), h.ps, fun _ => ⟨h.drvLog, h.sent⟩, fun hn => absurd hg hn⟩
  · have h := replyNok_repliedWhole m (hroom.mono (Nat.le_add_right 4 _))
    exact ⟨_, terminal_nok fun hb => hg ⟨hb.1, hr.1 hb.2⟩, h.ps, fun hb => absurd hb hg, fun _ => ⟨h.noCall, h.sent⟩⟩

/-- The commands of one driver call and no result data: both replies have four bytes (R122, R123). -/
theorem terminal_drvCall_replies {m : Cmd} {k : Byte} {r : Bool} {P : Prop} [Decidable P] {s : State} (c : DrvCall)
    (hr : r = true ↔ P) (hroom : s.canReply 4) :
    ∃ t, terminal m k r (noData (drvCall c)) s = .next t ∧ t.ps = { s.ps with top := .awaitingClassTag } ∧
      (if k = s.ps.csum ∧ P then t.drvLog = s.drvLog ++ [c] ∧
        t.sent = s.sent ++ [m.cls.tag, m.tag s.params, 1, m.cls.tag + 1 + m.tag s.params]
      else t.drvLog = s.drvLog ∧
        t.sent = s.sent ++ [m.cls.tag, m.tag s.params, 0, m.cls.tag + m.tag s.params]) := by
  obtain ⟨t, ht, hps, hok, hnok⟩ :=
    terminal_replies (m := m) (k := k) (run := noData (drvCall c)) hr (drvCall_runs c s) hroom
  rw [noData, okFrame_nil] at hok
  refine ⟨t, ht, hps, ?_⟩
  split
  next hg => exact hok hg
  next hb => exact hnok hb

/-! ## The GPIO commands -/

/-- The data tag of GPIO Write is fixed (30_encoding.md R86, R87). -/
theorem tag_gpioWrite_eq_three {p : Params} (h : p.ok = true) : Cmd.gpioWrite.tag p = 3 := by
  obtain ⟨-, -, -, hfixed⟩ := Params.ok_iff.1 h
  simp only [Params.tagsFixed, Bool.and_eq_true, beq_iff_eq] at hfixed
  obtain ⟨⟨-, hwrite⟩, -⟩ := hfixed
  exact hwrite

theorem isBit_iff_eq (v : Byte) : isBit v = true ↔ v = 0 ∨ v = 1 := by
  simp [isBit]

/-- Settles O50: one driver call without data, under the checks of the pin and of the option mask. -/
theorem gpioConfigConfiguresPin : Obligations.GpioConfigConfiguresPin := by
  intro s pin opt k hroom
  have hr : (gpioPinOk pin && optionsOk s.params.gpioOptMask opt) = true ↔
      2 ≤ pin.toNat ∧ pin.toNat ≤ 13 ∧ opt &&& ~~~s.params.gpioOptMask = 0 := by
    rw [Bool.and_eq_true, gpioPinOk_iff, optionsOk_iff, and_assoc]
  exact terminal_drvCall_replies (.gpioConfig pin opt) hr hroom

/-- Settles O51: the reply's byte is made of the sample that the logged call drew. -/
theorem gpioReadRepliesSample : Obligations.GpioReadRepliesSample := by
  intro s pin k hroom
  obtain ⟨t, ht, hps, hok, hnok⟩ := terminal_replies (m := .gpioRead) (k := k)
    (run := fun s => ([gpioReadByte (drvGpioRead pin s).1], (drvGpioRead pin s).2))
    (gpioPinOk_iff pin) (drvGpioRead_runs pin s) hroom
  refine ⟨t, ht, hps, ?_⟩
  split
  next hg => exact ⟨_, hok hg⟩
  next hb => exact hnok hb

/-- Settles O52: one driver call without data, under the checks of the pin and of the value; the tag 3 is fixed. -/
theorem gpioWriteDrivesPin : Obligations.GpioWriteDrivesPin := by
  intro s pin v k hroom
  have hr : (gpioPinOk pin && isBit v) = true ↔ 2 ≤ pin.toNat ∧ pin.toNat ≤ 13 ∧ (v = 0 ∨ v = 1) := by
    rw [Bool.and_eq_true, gpioPinOk_iff, isBit_iff_eq, and_assoc]
  have h := terminal_drvCall_replies (m := .gpioWrite) (k := k) (.gpioWrite pin v) hr hroom
  rw [tag_gpioWrite_eq_three hroom.1] at h
  exact h

end Sys2Proof.Machine

/-! The results of the Analog commands (43_analog.md): `terminal_replies` with the readings that the logged calls drew. -/

namespace Sys2Proof.Machine

/-- The data tag of Analog Read is fixed (30_encoding.md R86, R87). -/
theorem tag_analogRead_eq_two {p : Params} (h : p.ok = true) : Cmd.analogRead.tag p = 2 := by
  obtain ⟨-, -, -, hfixed⟩ := Params.ok_iff.1 h
  simp only [Params.tagsFixed, Bool.and_eq_true, beq_iff_eq] at hfixed
  obtain ⟨-, hread⟩ := hfixed
  exact hread

/-- Settles O53: the reply's data are the two bytes of the reading that the logged call drew; the tag 2 is fixed. -/
theorem analogReadRepliesReading : Obligations.AnalogReadRepliesReading := by
  intro s ch k hroom
  obtain ⟨t, ht, hps, hok, hnok⟩ := terminal_replies (m := .analogRead) (k := k)
    (run := fun s => (readingBytes (drvAdcRead ch s).1, (drvAdcRead ch s).2))
    (channelOk_iff ch) (drvAdcRead_runs ch s) hroom
  rw [okFrame, tag_analogRead_eq_two hroom.1] at hok
  rw [tag_analogRead_eq_two hroom.1] at hnok
  refine ⟨t, ht, hps, ?_⟩
  split
  next hg => exact ⟨_, hok hg⟩
  next hb => exact hnok hb

/-- Sampling all channels draws one reading for each of the six (R161). -/
theorem drvAdcReads_allChannels_eq_six (s : State) :
    ∃ w0 w1 w2 w3 w4 w5 : Half, (drvAdcReads allChannels s).1 = [w0, w1, w2, w3, w4, w5] :=
  ⟨_, _, _, _, _, _, rfl⟩

/-- Settles O54: the log pairs the channels, in ascending order, with the six readings whose bytes are the reply's data. -/
theorem analogReadAllRepliesSixReadings : Obligations.AnalogReadAllRepliesSixReadings := by
  intro s k hroom
  obtain ⟨w0, w1, w2, w3, w4, w5, hw⟩ := drvAdcReads_allChannels_eq_six s
  have hruns := drvAdcReads_runs allChannels s
  rw [hw] at hruns
  obtain ⟨t, ht, hps, hok, hnok⟩ := terminal_replies (m := .analogReadAll) (k := k) (P := True)
    (run := fun s => ((drvAdcReads allChannels s).1.flatMap readingBytes, (drvAdcReads allChannels s).2))
    (iff_of_true rfl trivial) hruns (by rw [hw]; exact hroom)
  rw [hw] at hok
  exact ⟨t, ht, hps, fun hk => ⟨w0, w1, w2, w3, w4, w5, hok ⟨hk, trivial⟩⟩, fun hk => hnok fun hg => hk hg.1⟩

end Sys2Proof.Machine

/-! The results of the I2C commands (44_i2c.md). Config and Write are `terminal_drvCall_replies`. The room asked of Read
holds its OK reply only when the length byte is within the bound, so its two outcomes are told apart before
`terminal_replies` could apply. -/

namespace Sys2Proof.Machine

/-- Settles O55: one driver call without data, under the check of the selector. -/
theorem i2cConfigSelectsClock : Obligations.I2cConfigSelectsClock := by
  intro s sel k hroom
  exact terminal_drvCall_replies (.i2cConfig sel) (isBit_iff_eq sel) hroom

/-- Settles O56: on success the minimum in the room is `n`, the length of what the logged call drew; a refusal needs four
bytes alone. -/
theorem i2cReadRepliesBytes : Obligations.I2cReadRepliesBytes := by
  intro s addr off n k hroom
  rw [exec, execI2cRead]
  by_cases hg : k = s.ps.csum ∧ n.toNat ≤ s.params.i2cRdCap.toNat
  · obtain ⟨hk, hn⟩ := hg
    have hlen := drvI2cRead_length addr off n s
    rw [Nat.min_eq_left hn, ← hlen] at hroom
    have h := (drvI2cRead_runs addr off n s).replyOk_repliedWhole .i2cRead hroom
    refine ⟨_, terminal_ok hk (decide_eq_true hn), h.ps, ?_⟩
    rw [if_pos ⟨hk, hn⟩]
    exact ⟨_, hlen, h.drvLog, h.sent⟩
  · have h := replyNok_repliedWhole .i2cRead (hroom.mono (Nat.le_add_right 4 _))
    refine ⟨_, terminal_nok fun hb => hg ⟨hb.1, of_decide_eq_true hb.2⟩, h.ps, ?_⟩
    rw [if_neg hg]
    exact ⟨h.noCall, h.sent⟩

/-- Settles O57: one driver call without data; the length byte is checked against the fixed bound 8. -/
theorem i2cWriteWritesBytes : Obligations.I2cWriteWritesBytes := by
  intro s addr off n data k hroom _
  exact terminal_drvCall_replies (.i2cWrite addr off data) decide_eq_true_iff hroom

end Sys2Proof.Machine

/-! The results of the Servo commands (45_servo.md): both are `terminal_drvCall_replies` under the one check of the pin. -/

namespace Sys2Proof.Machine

/-- Settles O58: one driver call without data for either command; the pulse width is in the call and in no check (D18). -/
theorem servoCommandsSetPulseWidth : Obligations.ServoCommandsSetPulseWidth := by
  intro s pin pw k hroom
  constructor
  · exact terminal_drvCall_replies (.servoConfig pin pw) (servoPinOk_iff pin) hroom
  · exact terminal_drvCall_replies (.servoSet pin pw) (servoPinOk_iff pin) hroom

end Sys2Proof.Machine

/-! The results of the Counter commands (46_counter.md): Config is `terminal_drvCall_replies`, and Read is
`terminal_replies` with the count that the logged call drew. -/

namespace Sys2Proof.Machine

/-- Settles O59: one driver call without data, under the checks of the pin and of the option mask. -/
theorem counterConfigArmsPin : Obligations.CounterConfigArmsPin := by
  intro s pin opt k hroom
  have hr : (counterPinOk pin && optionsOk s.params.cntOptMask opt) = true ↔
      pin.toNat ∈ [2, 3] ∧ opt &&& ~~~s.params.cntOptMask = 0 := by
    rw [Bool.and_eq_true, counterPinOk_iff, optionsOk_iff]
  exact terminal_drvCall_replies (.counterConfig pin opt) hr hroom

/-- Settles O60: the reply's byte is the count that the logged call drew. -/
theorem counterReadRepliesCount : Obligations.CounterReadRepliesCount := by
  intro s pin k hroom
  obtain ⟨t, ht, hps, hok, hnok⟩ := terminal_replies (m := .counterRead) (k := k)
    (run := fun s => ([(drvCounterRead pin s).1], (drvCounterRead pin s).2))
    (counterPinOk_iff pin) (drvCounterRead_runs pin s) hroom
  refine ⟨t, ht, hps, ?_⟩
  split
  next hg => exact ⟨_, hok hg⟩
  next hb => exact hnok hb

end Sys2Proof.Machine

/-! The two resets (60_exceptions.md R214, 70_reset_and_hazards.md R230), what an interrupt event leaves (R207), and the
inputs that leave most of the state alone: an unknown data tag and a frame answered NOK. While halted every step restarts
the device or leaves the parser state, and the spin's restart comes at last. -/

namespace Sys2Proof.Machine

/-! ## Resets and interrupt events -/

theorem step_watchdogReset {s : State} {es : List Event} (hp : s.params.ok = true)
    (hs : s.schedule = .watchdogReset :: es) : step s = .next (watchdogReset (s.withSchedule es)) := by
  rw [step_ok hp, nextEvent, hs]

theorem step_powerOnReset {s : State} {es : List Event} (hp : s.params.ok = true)
    (hs : s.schedule = .powerOnReset :: es) : step s = .next (restart (s.withSchedule es)) := by
  rw [step_ok hp, nextEvent, hs]

@[simp] theorem restart_rxBytes (s : State) : (restart s).rxBytes = [] := Ring.reset_bytes _

@[simp] theorem restart_txBytes (s : State) : (restart s).txBytes = [] := Ring.reset_bytes _

/-- Settles O17: the step is the restart. -/
theorem powerOnResetRestarts : Obligations.PowerOnResetRestarts := by
  intro s es hp hs
  exact ⟨_, step_powerOnReset hp hs, restart_atReset _, restart_rxBytes _, restart_txBytes _, rfl, restart_drvLog _, rfl,
    rfl, rfl, rfl⟩

/-- Settles O27: `runIrq_runs` says what every interrupt event leaves, and each of the three touches its own fields. -/
theorem interruptEventsTouchTheirOwn : Obligations.InterruptEventsTouchTheirOwn := by
  intro s e es hp hs
  have hruns := runIrq_runs e (s.withSchedule es)
  have hlog : (runIrq e (s.withSchedule es)).drvLog = s.drvLog := hruns.drvLog.trans (List.append_nil _)
  refine ⟨_, step_irq hp hs, hruns.ps, hlog, hruns.params, hruns.schedule, runIrq_slots e _, hruns.spin, ?_⟩
  cases e with
  | rxArrive b => exact ⟨rfl, rfl, rfl⟩
  | txDrain =>
    rw [runIrq, txDrain_eq]
    exact ⟨rfl, rfl⟩
  | peripheral => exact ⟨rfl, rfl, rfl⟩

/-! ## Inputs without effect -/

/-- A byte that is the data tag of no command of the class selects none (30_encoding.md R87). -/
theorem lookup_eq_none {p : Params} {c : Cls} {b : Byte} (h : ∀ m : Cmd, m.cls = c → m.tag p ≠ b) :
    lookup p c b = none := by
  cases hl : lookup p c b with
  | none => rfl
  | some m =>
    obtain ⟨hc, ht⟩ := lookup_some hl
    exact absurd ht (h m hc)

/-- Settles O34: the byte is the one `Accumulates.skipsDataTag` takes. -/
theorem unknownDataTagDiscarded : Obligations.UnknownDataTagDiscarded := by
  intro s b r c h ht hp hunknown
  exact step_accumulates h (.skipsDataTag c ht hp (lookup_eq_none hunknown))

/-- With nothing drained meanwhile, the whole reply waits in `tx` behind what waited before. -/
theorem RepliedWhole.txBytes {cs : List DrvCall} {f : List Byte} {s t : State} (h : RepliedWhole cs f s t)
    (hw : t.wireOut = s.wireOut) : t.txBytes = s.txBytes ++ f := by
  have hsent := h.sent
  rw [State.sent, State.sent, hw, List.append_assoc] at hsent
  exact List.append_cancel_left hsent

/-- With no interrupt event inside the Decode, a NOK reply changes `tx` and returns the parser to awaiting a class tag
(40_dispatcher.md R121, R123). -/
theorem replyNok_eq {s : State} (m : Cmd) (hs : s.slots = []) :
    replyNok m s = (s.withTx (s.tx.receive s.params.txCap (nokFrame s.params m))).withPs
      { s.ps with top := .awaitingClassTag } := by
  rw [replyNok, emit_eq_withTx _ hs]
  rfl

/-- Settles O42: the answer is the NOK reply and nothing else. -/
theorem nokReplyHasNoSideEffect : Obligations.NokReplyHasNoSideEffect := by
  intro i s hbad hs
  have hanswer := exec_nok hbad
  rw [replyNok_eq i.cmd hs] at hanswer
  refine ⟨_, hanswer, rfl, fun hroom => ?_⟩
  have hreplied := replyNok_repliedWhole i.cmd hroom
  rw [replyNok_eq i.cmd hs] at hreplied
  exact hreplied.txBytes rfl

/-! ## The watchdog -/

/-- Some number of steps leads to the restart, with the parser state unchanged until then. -/
def State.ReachesRestart (s : State) : Prop :=
  ∃ (n : Nat) (t : State), core.run n s = .next t ∧ t.AtReset ∧ t.params = s.params ∧
    ∀ j, j < n → ∃ u : State, core.run j s = .next u ∧ u.ps = s.ps

/-- A step that restarts ends the wait; one that leaves the parser state puts it off. -/
theorem State.ReachesRestart.of_step {s t : State} (h : step s = .next t)
    (ht : t.AtReset ∨ t.ps = s.ps ∧ t.ReachesRestart) : s.ReachesRestart := by
  have hparams := (step_keeps h).params
  obtain hreset | ⟨hps, n, u, hrun, hreset, hparams', huntil⟩ := ht
  · refine ⟨1, t, run_succ h 0, hreset, hparams, fun j hj => ?_⟩
    obtain rfl := Nat.lt_one_iff.1 hj
    exact ⟨s, rfl, rfl⟩
  · refine ⟨n + 1, u, (run_succ h n).trans hrun, hreset, hparams'.trans hparams, fun j hj => ?_⟩
    cases j with
    | zero => exact ⟨s, rfl, rfl⟩
    | succ j =>
      obtain ⟨v, hv, hvps⟩ := huntil j (Nat.lt_of_succ_lt_succ hj)
      exact ⟨v, (run_succ h j).trans hv, hvps.trans hps⟩

/-- While halted every step answers: no byte is decoded, so no parser position matters (41_misc.md R140). -/
theorem step_answers_of_halted {s : State} (hp : s.params.ok = true) (hh : s.ps.halted = true) :
    ∃ t, step s = .next t := by
  match hs : s.schedule with
  | [] => exact ⟨_, step_spin hp hs hh⟩
  | .irq e :: es => exact ⟨_, step_irq hp hs⟩
  | .decode sl :: es =>
    exact ⟨_, (step_decode hp hs).trans (mainLoop_idle (s := (s.withSchedule es).withSlots sl) (.inl hh))⟩
  | .watchdogReset :: es => exact ⟨_, step_watchdogReset hp hs⟩
  | .powerOnReset :: es => exact ⟨_, step_powerOnReset hp hs⟩

/-- While halted a step restarts the device or leaves the parser state. -/
theorem step_halted_cases {s t : State} (hh : s.ps.halted = true) (h : step s = .next t) : t.AtReset ∨ t.ps = s.ps := by
  cases step_steps h with
  | idles h => exact .inr h.ps
  | restarts es => exact .inl (restart_atReset _)
  | decodes es sl hrunning => simp [hh] at hrunning

/-- The Reset spin ends: each turn takes one from the watchdog's wait (60_exceptions.md R214). -/
theorem reachesRestart_of_unscheduled {s : State} (hp : s.params.ok = true) (hs : s.schedule = [])
    (hh : s.ps.halted = true) : s.ReachesRestart := by
  induction hk : Config.watchdogTurns s.drvTrace - s.spin using Nat.strong_induction_on generalizing s with
  | _ k ih =>
    refine .of_step (step_spin hp hs hh) ?_
    obtain ⟨-, he⟩ | ⟨hlt, he⟩ := spinTurn_cases hh <;> rw [he]
    · exact .inl (restart_atReset s)
    · have hruns := txDrain_runs s
      refine .inr ⟨hruns.ps, ih _ ?_ (hruns.params ▸ hp) (hruns.schedule.trans hs)
        ((congrArg Parser.halted hruns.ps).trans hh) rfl⟩
      rw [State.withSpin_drvTrace, txDrain_drvTrace, State.withSpin_spin]
      omega

/-- The schedule is finite, and each step takes one event from it. -/
theorem reachesRestart {s : State} (hp : s.params.ok = true) (hh : s.ps.halted = true) : s.ReachesRestart := by
  induction hs : s.schedule generalizing s with
  | nil => exact reachesRestart_of_unscheduled hp hs hh
  | cons e es ih =>
    obtain ⟨t, ht⟩ := step_answers_of_halted hp hh
    refine .of_step ht ((step_halted_cases hh ht).imp_right fun hps => ⟨hps, ih ?_ (hps ▸ hh) ?_⟩)
    · exact (step_keeps ht).params ▸ hp
    · rw [step_schedule ht, hs, List.tail_cons]

/-- Settles O18: scheduled, the event is `watchdogReset`'s two branches; the restart that comes at last is
`reachesRestart`. -/
theorem watchdogResetOnlyWhenHalted : Obligations.WatchdogResetOnlyWhenHalted := by
  refine ⟨fun s es hp hs => ⟨_, step_watchdogReset hp hs, fun hh => ?_, fun hh => ?_⟩, fun _ => reachesRestart⟩
  · rw [watchdogReset, State.withSchedule_ps, if_pos hh]
    exact ⟨restart_atReset _, restart_rxBytes _, restart_txBytes _, rfl, restart_drvLog _, rfl, rfl⟩
  · rw [watchdogReset, State.withSchedule_ps, hh]
    rfl

end Sys2Proof.Machine
